-- ==== Sys2Proof/Word.lean ====
section
/-! DEFINITION. The bit-vector types of the engine: state words, 32-bit operands, floating-point bit
patterns, the cursor register, and the command and response words of the two ports. -/

namespace Sys2Proof

/-- A `u64`: one state word, a tempered word, the `arg` field, the `data` field (spec R10, R20). -/
abbrev Word := BitVec 64

/-- The bit pattern of an `i32` (spec R10). -/
abbrev I32 := BitVec 32

/-- The bit pattern of an `f64`, IEEE 754 binary64 (spec R10, R135). -/
abbrev F64 := BitVec 64

/-- The bit pattern of an `f32`, IEEE 754 binary32 (spec R10, R135). -/
abbrev F32 := BitVec 32

/-- The cursor register `IDX`, nine bits wide (spec R8, R24). -/
abbrev Cursor := BitVec 9

/-- An 8-bit opcode or status code (spec R61, R64). -/
abbrev Code := BitVec 8

/-- A 72-bit command word `cmd[71:0]` (spec R61). -/
abbrev CommandWord := BitVec 72

/-- A 72-bit response word `rsp[71:0]` (spec R64). -/
abbrev ResponseWord := BitVec 72

end Sys2Proof
end

