-- ==== Sys2Proof/Config.lean ====
section
/-! DEFINITION. What is fixed for this hardware (the named constants of spec R7 and R8) and the free values,
which no rule of the spec fixes: opaque constants without a body. -/

namespace Sys2Proof.Config

/-- `N`, the number of state words (spec R7). -/
abbrev N : Nat := 312

/-- `M`, the recurrence offset (spec R7). -/
abbrev M : Nat := 156

/-- `F`, the seeding multiplier (spec R7). -/
def F : Word := 6364136223846793005#64

/-- `SEED_SHIFT`, the right shift of the seeding recurrence (spec R7). -/
def seedShift : Nat := 62

/-- `MATRIX_A`, the twist matrix coefficient (spec R7). -/
def matrixA : Word := 0xB5026F5AA96619E9#64

/-- `UPPER_MASK`: bit 63 only, taken from `MT[i]` (spec R7, 90_conflicts.md C1). -/
def upperMask : Word := 0x8000000000000000#64

/-- `LOWER_MASK`: bits 30..0, taken from `MT[(i+1) mod 312]` (spec R7). -/
def lowerMask : Word := 0x000000007FFFFFFF#64

/-- `T1_SHIFT`, tempering step 1, a right shift (spec R7). -/
def t1Shift : Nat := 29
/-- `T1_MASK` (spec R7). -/
def t1Mask : Word := 0x5555555555555555#64
/-- `T2_SHIFT`, tempering step 2, a left shift (spec R7). -/
def t2Shift : Nat := 17
/-- `T2_MASK` (spec R7). -/
def t2Mask : Word := 0x71D67FFFEDA60000#64
/-- `T3_SHIFT`, tempering step 3, a left shift (spec R7). -/
def t3Shift : Nat := 37
/-- `T3_MASK` (spec R7). -/
def t3Mask : Word := 0xFFF7EEE000000000#64
/-- `T4_SHIFT`, tempering step 4, a right shift without a mask (spec R7). -/
def t4Shift : Nat := 43

/-- `INT_BITS`: how many top bits of a tempered word a bounded-integer draw uses (spec R7). -/
def intBits : Nat := 31

/-- `REAL_DIVISOR`, the divisor of `uniform` (spec R7, 90_conflicts.md C6). -/
def realDivisor : Nat := 2 ^ 63 - 1

/-- How many passes of the rejection loop ONE model step runs before it hands the engine over, still drawing, to the
next step. It is the number of legal contents of `MT` and `IDX` together (313 cursors, `2^64` values a word: spec R28),
so a loop that has not accepted within it repeats a state and never accepts. It is no iteration cap (spec R120):
a loop that reaches it goes on in the next step. DESIGN CHOICE, assumption 6. -/
def passesPerStep : Nat := (N + 1) * (2 ^ 64) ^ N

/-- FREE VALUE (spec R142, 93 U5): sign and payload of a NaN result of RANDDOUBLE, UNIFORM's division included. By
R31 it may depend on nothing but `MT`, `IDX` and the operand. No body: nothing can be proved of its value.
Assumption 4. -/
opaque freeNan64 : Vector Word N → Cursor → F64 → Word

/-- FREE VALUE (spec R142, 93 U5): sign and payload of a NaN result of RANDFLOAT, as `freeNan64`. Assumption 4. -/
opaque freeNan32 : Vector Word N → Cursor → F32 → BitVec 32

/-- FREE VALUE (spec R8, R193, 93 U1): `DEFAULT_SEED`, the host's seed for a construction without one. The engine
itself has no default seed. Assumption 5. -/
opaque defaultSeed : Word

end Sys2Proof.Config
end

