-- ==== Sys2Proof/Syntax.lean ====
section
/-! DEFINITION. The command set as data: one constructor of `Instr` for each row of the opcode map (spec R63), its
operands already read in the row's operand form (spec R62). -/

namespace Sys2Proof

/-- The ten commands (spec R63). An `i32`, `f32` or `f64` operand is held as its bit pattern. -/
inductive Instr where
  /-- SEED: `initialize(seed)` (spec R80). -/
  | seed (value : Word)
  /-- GETSEED: `getSeed()` (spec R155). -/
  | getseed
  /-- EXTRACT: `extractWord()` (spec R100). -/
  | extract
  /-- RANDINT: `randint(bound)` (spec R115). -/
  | randint (bound : I32)
  /-- RANDRANGE: `randrange(min, max)` (spec R122). -/
  | randrange (min max : I32)
  /-- UNIFORM: `uniform()` (spec R136). -/
  | uniform
  /-- RANDFLOAT: `randfloat(bound)` (spec R140). -/
  | randfloat (bound : F32)
  /-- RANDDOUBLE: `randdouble(bound)` (spec R139). -/
  | randdouble (bound : F64)
  /-- RDCUR: the cursor, test hook (spec R157). -/
  | rdcur
  /-- RDWORD: one state word, test hook (spec R158). -/
  | rdword (index : BitVec 9)
  deriving DecidableEq, Repr

/-- The rows of the opcode map by name (spec R63). -/
inductive Mnemonic where
  | seed | getseed | extract | randint | randrange | uniform | randfloat | randdouble | rdcur | rdword
  deriving DecidableEq, Repr

/-- The row of the opcode map a command belongs to. -/
def Instr.mnemonic : Instr → Mnemonic
  | .seed _ => .seed
  | .getseed => .getseed
  | .extract => .extract
  | .randint _ => .randint
  | .randrange _ _ => .randrange
  | .uniform => .uniform
  | .randfloat _ => .randfloat
  | .randdouble _ => .randdouble
  | .rdcur => .rdcur
  | .rdword _ => .rdword

end Sys2Proof
end

