-- ==== Sys2Proof/WellFormed.lean ====
section
/-! DEFINITION. Which terms of `Instr` are commands of the engine: every operand value is legal but RDWORD's index,
which must name a state word (spec R62, R66 case 3). -/

namespace Sys2Proof

/-- The one check on operands: RDWORD's index is one of `0..311` (spec R62, R158). -/
def Instr.wellFormed : Instr → Bool
  | .rdword index => decide (index.toNat < Config.N)
  | .seed _ => true
  | .getseed => true
  | .extract => true
  | .randint _ => true
  | .randrange _ _ => true
  | .uniform => true
  | .randfloat _ => true
  | .randdouble _ => true
  | .rdcur => true

/-- `i` is a command the engine has. -/
abbrev Instr.WellFormed (i : Instr) : Prop := i.wellFormed = true

end Sys2Proof
end

