-- ==== Sys2Proof/Decode.lean ====
section
/-! DEFINITION. Command words: the opcode map (spec R61 to R63), the decoder, total on all `2^72` words and rejecting by
name (spec R66), and after it the encoder. -/

namespace Sys2Proof

/-! ## Fields of a command word (spec R61, R62) -/

/-- `op = cmd[71:64]`. -/
def opField (c : CommandWord) : Code := c.extractLsb' 64 8

/-- `arg = cmd[63:0]`. -/
def argField (c : CommandWord) : Word := c.extractLsb' 0 64

/-- `arg[31:0]`. -/
def argLow (arg : Word) : BitVec 32 := arg.extractLsb' 0 32

/-- `arg[63:32]`. -/
def argHigh (arg : Word) : BitVec 32 := arg.extractLsb' 32 32

/-- `arg[8:0]`, the index of form `IDX9`. -/
def argIndex (arg : Word) : BitVec 9 := arg.extractLsb' 0 9

/-- `arg[63:9]`, the reserved bits of form `IDX9`. -/
def argAboveIndex (arg : Word) : BitVec 55 := arg.extractLsb' 9 55

/-! ## The opcode map (spec R63) -/

/-- The opcode of a row. -/
def Mnemonic.opcode : Mnemonic → Code
  | .seed => 0x01#8
  | .getseed => 0x02#8
  | .extract => 0x10#8
  | .randint => 0x20#8
  | .randrange => 0x21#8
  | .uniform => 0x30#8
  | .randfloat => 0x31#8
  | .randdouble => 0x32#8
  | .rdcur => 0x40#8
  | .rdword => 0x41#8

/-- A row of the opcode map: the fixed bits of the 72-bit word and their values. -/
structure OpcodeRow where
  mnemonic : Mnemonic
  pattern : CommandWord
  mask : CommandWord
  deriving DecidableEq, Repr

/-- The opcode map as the spec prints it (spec R63). The decoder below is written from the operand forms of R62 and
R66; `Obligations.DecodingFollowsTheOpcodeMap` says that it agrees with this table. -/
def opcodeMap : List OpcodeRow :=
  [ ⟨.seed,       0x010000000000000000#72, 0xFF0000000000000000#72⟩,
    ⟨.getseed,    0x020000000000000000#72, 0xFFFFFFFFFFFFFFFFFF#72⟩,
    ⟨.extract,    0x100000000000000000#72, 0xFFFFFFFFFFFFFFFFFF#72⟩,
    ⟨.randint,    0x200000000000000000#72, 0xFFFFFFFFFF00000000#72⟩,
    ⟨.randrange,  0x210000000000000000#72, 0xFF0000000000000000#72⟩,
    ⟨.uniform,    0x300000000000000000#72, 0xFFFFFFFFFFFFFFFFFF#72⟩,
    ⟨.randfloat,  0x310000000000000000#72, 0xFFFFFFFFFF00000000#72⟩,
    ⟨.randdouble, 0x320000000000000000#72, 0xFF0000000000000000#72⟩,
    ⟨.rdcur,      0x400000000000000000#72, 0xFFFFFFFFFFFFFFFFFF#72⟩,
    ⟨.rdword,     0x410000000000000000#72, 0xFFFFFFFFFFFFFFFE00#72⟩ ]

/-- `c` has the fixed bits of row `r`: `c & mask = match` (spec R63). -/
abbrev OpcodeRow.Matches (r : OpcodeRow) (c : CommandWord) : Prop := c &&& r.mask = r.pattern

/-! ## Decoding (spec R66) -/

/-- Why a command word spells no command: the three cases of spec R66. The engine answers each alike. -/
inductive Illegal where
  /-- Case 1: `op` is in no row of the map. -/
  | unknownOpcode (op : Code)
  /-- Case 2: a bit the operand form reserves is 1. -/
  | reservedBitSet (op : Code)
  /-- Case 3: RDWORD with an index of 312 or more. -/
  | indexOutOfRange (index : BitVec 9)
  deriving DecidableEq, Repr

/-- Form `NONE`: all of `arg` is reserved. -/
def formNone (op : Code) (arg : Word) (i : Instr) : Except Illegal Instr :=
  if arg = 0#64 then .ok i else .error (.reservedBitSet op)

/-- Forms `I32` and `F32`: the operand is `arg[31:0]`, the upper half is reserved. -/
def formLow32 (op : Code) (arg : Word) (make : BitVec 32 → Instr) : Except Illegal Instr :=
  if argHigh arg = 0#32 then .ok (make (argLow arg)) else .error (.reservedBitSet op)

/-- Form `IDX9`: the index is `arg[8:0]`, the rest is reserved, and the index must be at most 311. -/
def formIndex (op : Code) (arg : Word) (make : BitVec 9 → Instr) : Except Illegal Instr :=
  if argAboveIndex arg = 0#55 then
    if (argIndex arg).toNat < Config.N then .ok (make (argIndex arg)) else .error (.indexOutOfRange (argIndex arg))
  else .error (.reservedBitSet op)

/-- Decodes a command word, or says why it is illegal (spec R62, R63, R66). -/
def decode (c : CommandWord) : Except Illegal Instr :=
  let op := opField c
  let arg := argField c
  if op = Mnemonic.seed.opcode then .ok (.seed arg)
  else if op = Mnemonic.getseed.opcode then formNone op arg .getseed
  else if op = Mnemonic.extract.opcode then formNone op arg .extract
  else if op = Mnemonic.randint.opcode then formLow32 op arg .randint
  else if op = Mnemonic.randrange.opcode then .ok (.randrange (argLow arg) (argHigh arg))
  else if op = Mnemonic.uniform.opcode then formNone op arg .uniform
  else if op = Mnemonic.randfloat.opcode then formLow32 op arg .randfloat
  else if op = Mnemonic.randdouble.opcode then .ok (.randdouble arg)
  else if op = Mnemonic.rdcur.opcode then formNone op arg .rdcur
  else if op = Mnemonic.rdword.opcode then formIndex op arg .rdword
  else .error (.unknownOpcode op)

/-! ## Encoding (spec R61, R62, R69) -/

/-- `{op, arg}`. -/
def commandWord (op : Code) (arg : Word) : CommandWord := op ++ arg

/-- The operand field of a command, reserved bits 0 (spec R62). -/
def Instr.arg : Instr → Word
  | .seed value => value
  | .getseed => 0#64
  | .extract => 0#64
  | .randint bound => bound.setWidth 64
  | .randrange min max => max ++ min
  | .uniform => 0#64
  | .randfloat bound => bound.setWidth 64
  | .randdouble bound => bound
  | .rdcur => 0#64
  | .rdword index => index.setWidth 64

/-- The command word of a command. -/
def encode (i : Instr) : CommandWord := commandWord i.mnemonic.opcode i.arg

/-! ## The numbering of spec/opcode_table.json -/

/-- The command word whose low `nbits` bits are `w`'s and whose other bits are 0. The table's words are the 72-bit
words of spec R61 and there is no byte order to undo (spec R42). -/
def tableWord (nbits w : Nat) : CommandWord := BitVec.ofNat 72 (w % 2 ^ nbits)

/-- The instruction the decoder reads from a word numbered as the opcode table numbers it. -/
def decodeTableWord (nbits w : Nat) : Option Instr :=
  match decode (tableWord nbits w) with
  | .ok i => some i
  | .error _ => none

end Sys2Proof
end

