-- ==== Sys2Proof/Machine/State.lean ====
section
/-! DEFINITION. The engine's state (spec R20 to R32), the response word, what the host does at the ports, the reasons a
step can stop, and the state after reset. Plain data throughout. -/

namespace Sys2Proof.Machine

/-- The state array `MT`, 312 words of 64 bits (spec R20). -/
abbrev StateArray := Vector Word Config.N

/-- The pair of state array and cursor that a seeded engine draws its words from: what the source calls
GeneratorState (spec 10_state.md, R20, R24). -/
structure GeneratorState where
  /-- `MT[0..311]` (spec R20). -/
  mt : StateArray
  /-- `IDX`, 0..312; 312 means a twist is required before the next read (spec R24). -/
  idx : Cursor
  deriving DecidableEq, Repr

/-- The four status codes by name (spec R65). -/
inductive Status where
  | ok | invalidArgument | illegalCommand | unseeded
  deriving DecidableEq, Repr

/-- A response: status and 64-bit data (spec R64). Its 72-bit word is `Response.word`. -/
structure Response where
  status : Status
  data : Word
  deriving DecidableEq, Repr

/-- A bounded-integer command whose rejection loop is running: the loop's bound, and what is added to the accepted value
(0 for RANDINT, `min` for RANDRANGE: spec R115, R122). -/
structure BoundedJob where
  bound : I32
  offset : I32
  deriving DecidableEq, Repr

/-- "The engine is either in reset or idle or executing a command" (spec R181). A command that responds does so inside
one model step, so the only command ever left in execution between steps is a bounded-integer command whose rejection
loop has accepted nothing yet (spec R120, R197). -/
inductive Phase where
  /-- Reset is asserted (spec R190). -/
  | inReset
  /-- Out of reset, no command in execution: `cmd_ready` is 1 (spec R60). -/
  | idle
  /-- In the rejection loop of a bounded-integer command: `cmd_ready` is 0 (spec R60, R120). -/
  | drawing (job : BoundedJob)
  deriving DecidableEq, Repr

/-- What the host does at the engine's inputs during one step. The engine has a command port and a reset input and no
other input (spec R60, R174, R190). Assumption 2. -/
inductive HostAction where
  /-- Nothing is presented. -/
  | wait
  /-- The command word `w` is presented (spec R60). -/
  | command (w : CommandWord)
  /-- The command word `w` is presented, and reset is asserted before its command responds (spec R191). -/
  | commandCutByReset (w : CommandWord)
  /-- The reset input is asserted (spec R190). -/
  | assertReset
  /-- The reset input is released (spec R190). -/
  | releaseReset
  deriving DecidableEq, Repr

/-- The whole state. `seeded` and `gen` are the engine's architectural state (spec R20, R24, R26, R28); `phase` is which
of reset, idle and executing it is in (spec R181). `host` and `responses` are the two ports seen as data: what the host
will do, next action first, and the responses delivered so far, oldest first (spec R60, R204). Assumption 2. -/
structure State where
  /-- `SEEDED` (spec R26). -/
  seeded : Bool
  /-- `MT` and `IDX` (spec R20, R24). -/
  gen : GeneratorState
  phase : Phase
  host : List HostAction
  responses : List Response
  deriving DecidableEq, Repr

/-- The machine never stops with a fault: every condition the spec calls an error is a response (spec R165, R172), every
access to `MT` is in range (spec R41, R168), and a rejection loop that never accepts leaves the engine executing
(spec R120). So there is no constructor. -/
inductive Fault where
  deriving DecidableEq, Repr

/-- Why a step has no meaning. -/
inductive Refusal where
  /-- Raised by an arm of `exec` whose instruction has no meaning yet. No arm raises it in this model. Safe. -/
  | notModelled (mnemonic : String)
  deriving DecidableEq, Repr

/-- The contents the model gives `MT` and `IDX` at reset, where the spec leaves them unspecified (spec R32, R190): all
zero. DESIGN CHOICE, assumption 1. -/
def GeneratorState.atReset : GeneratorState := ⟨Vector.replicate Config.N 0#64, 0#9⟩

/-- The machine right after reset (spec R32, R190): unseeded and idle, nothing presented, nothing answered. -/
def State.reset : State where
  seeded := false
  gen := GeneratorState.atReset
  phase := .idle
  host := []
  responses := []

end Sys2Proof.Machine
end

