-- ==== Sys2Proof/Machine/Ops.lean ====
section
/-! DEFINITION. The operations the commands share: reading and writing `MT`, the twist, tempering and the output
selector, raw extraction, giving a response, raising an error, and reset. -/

namespace Sys2Proof.Machine

/-! ## The state array as memory (spec R40 to R45) -/

/-- `MT[i mod 312]`. Every index a rule forms is reduced modulo 312 or at most 311 already (spec R41, R45). -/
def readWord (mt : StateArray) (i : Nat) : Word := mt[i % Config.N]'(Nat.mod_lt i (by decide))

/-- `MT[i mod 312] <- v` (spec R44: one whole word). -/
def writeWord (mt : StateArray) (i : Nat) (v : Word) : StateArray := mt.set (i % Config.N) v (Nat.mod_lt i (by decide))

/-! ## The twist (spec R91, R92, R95) -/

/-- `G(u, l)` of spec R95: the value `xA` of one twist step from `u = MT[i]` and `l = MT[(i+1) mod 312]`. -/
def twistMix (u l : Word) : Word :=
  let x := (u &&& Config.upperMask) ||| (l &&& Config.lowerMask)
  let xA := x >>> 1
  if x.getLsbD 0 then xA ^^^ Config.matrixA else xA

/-- Step `i` of the twist on the array as steps `0..i-1` left it (spec R91, R92). -/
def twistStep (mt : StateArray) (i : Nat) : StateArray :=
  writeWord mt i (readWord mt (i + Config.M) ^^^ twistMix (readWord mt i) (readWord mt (i + 1)))

/-- The array after the first `n` steps of the loop, ascending and in place (spec R92). -/
def twistSteps (n : Nat) (mt : StateArray) : StateArray := Nat.fold n (fun i _ acc => twistStep acc i) mt

/-- `TWIST()`: all 312 steps, then `IDX <- 0` (spec R91). It does not read `IDX` (spec R96). -/
def twist (g : GeneratorState) : GeneratorState := ⟨twistSteps Config.N g.mt, 0#9⟩

/-! ## Tempering and the output selector (spec R102, R105) -/

/-- Tempering step 1 (spec R102). -/
def temper1 (y : Word) : Word := y ^^^ ((y >>> Config.t1Shift) &&& Config.t1Mask)
/-- Tempering step 2 (spec R102). -/
def temper2 (y : Word) : Word := y ^^^ ((y <<< Config.t2Shift) &&& Config.t2Mask)
/-- Tempering step 3 (spec R102). -/
def temper3 (y : Word) : Word := y ^^^ ((y <<< Config.t3Shift) &&& Config.t3Mask)
/-- Tempering step 4 (spec R102). -/
def temper4 (y : Word) : Word := y ^^^ (y >>> Config.t4Shift)

/-- `TEMPER(y)`: the four steps in order (spec R102). -/
def temper (y : Word) : Word := temper4 (temper3 (temper2 (temper1 y)))

/-- `SEL64(t)`: all of the tempered word (spec R105). -/
def sel64 (t : Word) : Word := t

/-- `SEL63(t) = t[63:1]`, as a number below `2^63` (spec R105). -/
def sel63 (t : Word) : Nat := (t >>> 1).toNat

/-- `SEL31(t) = t[63:33]`, as a non-negative `i32` (spec R105). -/
def sel31 (t : Word) : I32 := (t >>> (64 - Config.intBits)).setWidth 32

/-! ## Raw extraction (spec R101) -/

/-- Runs the twist when the batch is exhausted: the first line of `EXTRACT_WORD()` (spec R90, R101). -/
def refill (g : GeneratorState) : GeneratorState := if Config.N ≤ g.idx.toNat then twist g else g

/-- `EXTRACT_WORD()`: refill, read `MT[IDX]`, `IDX <- IDX + 1`, return the word tempered (spec R101). -/
def extractWord (g : GeneratorState) : Word × GeneratorState :=
  let ready := refill g
  (temper (readWord ready.mt ready.idx.toNat), ⟨ready.mt, ready.idx + 1#9⟩)

/-! ## Responses and errors (spec R64, R65, R165 to R173) -/

/-- The code of a status (spec R65). -/
def Status.code : Status → Code
  | .ok => 0x00#8
  | .invalidArgument => 0x01#8
  | .illegalCommand => 0x02#8
  | .unseeded => 0x03#8

/-- The 72-bit response word `{status, data}` (spec R64). -/
def Response.word (r : Response) : ResponseWord := r.status.code ++ r.data

/-- `respond(status, data)`: the engine emits one response (spec R13, R60). -/
def State.respond (s : State) (status : Status) (data : Word) : State :=
  { s with responses := s.responses ++ [⟨status, data⟩] }

/-- The three error conditions (spec R165). -/
inductive EngineError where
  | invalidArgument | illegalCommand | unseeded
  deriving DecidableEq, Repr

/-- The status that reports an error (spec R165). -/
def EngineError.status : EngineError → Status
  | .invalidArgument => .invalidArgument
  | .illegalCommand => .illegalCommand
  | .unseeded => .unseeded

/-- Raising an error, the engine's one form of exception entry: the response `{code, 0}` and nothing else. Nothing is
saved, no mode changes, control goes nowhere (spec R13, R165, R170, R172). The return from it is the next command: the
engine is as it was before the failed one, so there is no operation to define (spec R173). -/
def raise (e : EngineError) (s : State) : Host.Outcome State Fault Refusal := .next (s.respond e.status 0#64)

/-- Ends a command with an OK response (spec R64, R67 step 4). -/
def finish (data : Word) (s : State) : Host.Outcome State Fault Refusal := .next (s.respond .ok data)

/-! ## Reset (spec R190, R191) -/

/-- Reset is asserted: whatever was in execution is abandoned without a response, and `SEEDED`, `MT` and `IDX` are what
they are after reset (spec R190, R191). -/
def State.enterReset (s : State) : State :=
  { s with seeded := false, gen := GeneratorState.atReset, phase := .inReset }

/-- Reset is released: the engine is idle (spec R190). Releasing an input that is not asserted changes nothing. -/
def State.leaveReset (s : State) : State :=
  match s.phase with
  | .inReset => { s with phase := .idle }
  | .idle => s
  | .drawing _ => s

end Sys2Proof.Machine
end

