-- ==== Sys2Proof/Machine/Operands.lean ====
section
/-! DEFINITION. The operand forms as the commands read them: `i32` operands and their 32-bit wraparound arithmetic (spec
R10, R12), and how a 32-bit result is packed into `data` (spec R64). Floating-point operands are in Ieee.lean. -/

namespace Sys2Proof.Machine

/-- `a +32 b` (spec R12). -/
def add32 (a b : I32) : I32 := a + b

/-- `a -32 b` (spec R12). -/
def sub32 (a b : I32) : I32 := a - b

/-- `a mod b` for `a >= 0` and `b > 0`: the ordinary remainder (spec R12). -/
def mod32 (a b : I32) : I32 := BitVec.ofNat 32 (a.toNat % b.toNat)

/-- `bound <= 0` as an `i32` (spec R116). -/
def nonPositive32 (bound : I32) : Bool := decide (bound.toInt ≤ 0)

/-- `min >= max` as `i32`s (spec R123). -/
def emptyRange32 (min max : I32) : Bool := decide (max.toInt ≤ min.toInt)

/-- `zext_64(v)`: a 32-bit result in `data[31:0]`, the upper half 0 (spec R64). -/
def pack32 (v : BitVec 32) : Word := v.setWidth 64

/-- The cursor in `data[8:0]`, the rest 0 (spec R64, R157). -/
def packCursor (idx : Cursor) : Word := idx.setWidth 64

end Sys2Proof.Machine
end

