-- ==== Sys2Proof/Machine/Flags.lean ====
section
/-! DEFINITION. The engine's one flag, `SEEDED`, as the commands test it (spec R26, R67 step 2), and the one comparison
that steers execution, the rejection-sampling comparator (spec R27, R118). There are no other flags (spec R27). -/

namespace Sys2Proof.Machine

/-- Every command but SEED raises Unseeded while `SEEDED = 0` and touches nothing (spec R67 step 2, R169). -/
def whenSeeded (s : State) (command : Host.Outcome State Fault Refusal) : Host.Outcome State Fault Refusal :=
  if s.seeded then command else raise .unseeded s

/-- The comparator's 32-bit sum `t = (bits -32 val) +32 (bound -32 1)` (spec R118). -/
def comparatorSum (bits val bound : I32) : I32 := add32 (sub32 bits val) (sub32 bound 1#32)

/-- `ACCEPT(bits, val, bound)`: bit 31 of the sum is 0 (spec R118). -/
def accept (bits val bound : I32) : Bool := !(comparatorSum bits val bound).msb

end Sys2Proof.Machine
end

