-- ==== Sys2Proof/Machine/Bounded.lean ====
section
/-! DEFINITION. The integer family: RANDINT and RANDRANGE over the rejection-sampling loop (spec
43_bounded_integer.md). -/

namespace Sys2Proof.Machine

/-- One pass of the loop `BOUNDED(bound)`: draws a word, and returns `val` if the comparator accepts it (spec R117). -/
def boundedPass (bound : I32) (g : GeneratorState) : Option I32 × GeneratorState :=
  let (w, g') := extractWord g
  let bits := sel31 w
  let val := mod32 bits bound
  (if accept bits val bound then some val else none, g')

/-- Up to `n` passes, stopping at the first accepted draw (spec R117). `none` says that all `n` draws were rejected. -/
def boundedPasses (bound : I32) : Nat → GeneratorState → Option I32 × GeneratorState
  | 0, g => (none, g)
  | n + 1, g =>
    match boundedPass bound g with
    | (some val, g') => (some val, g')
    | (none, g') => boundedPasses bound n g'

/-- What a bounded-integer command does after some passes of its loop: with an accepted value it answers and the engine is
idle again. Otherwise it stays in execution and gives no response (spec R120, R125, R197). -/
def settleJob (job : BoundedJob) (result : Option I32 × GeneratorState) (s : State) : Host.Outcome State Fault Refusal :=
  match result with
  | (some val, g) => finish (pack32 (add32 val job.offset)) { s with gen := g, phase := .idle }
  | (none, g) => .next { s with gen := g, phase := .drawing job }

/-- Runs the loop of an accepted bounded-integer command (spec R117). -/
def runJob (job : BoundedJob) (s : State) : Host.Outcome State Fault Refusal :=
  settleJob job (boundedPasses job.bound Config.passesPerStep s.gen) s

/-- One more pass of a command still in its loop (spec R120: "no later command is accepted"). -/
def continueJob (job : BoundedJob) (s : State) : Host.Outcome State Fault Refusal :=
  settleJob job (boundedPass job.bound s.gen) s

/-- RANDINT: the argument check, then the loop (spec R115, R116). -/
def execRandint (bound : I32) (s : State) : Host.Outcome State Fault Refusal :=
  whenSeeded s
    (if nonPositive32 bound then raise .invalidArgument s else runJob ⟨bound, 0#32⟩ s)

/-- RANDRANGE: both checks, then the loop with `bound = max -32 min`, whose value is moved by `min` (spec R122 to
R125). -/
def execRandrange (min max : I32) (s : State) : Host.Outcome State Fault Refusal :=
  whenSeeded s
    (if emptyRange32 min max then raise .invalidArgument s
     else if nonPositive32 (sub32 max min) then raise .invalidArgument s
     else runJob ⟨sub32 max min, min⟩ s)

end Sys2Proof.Machine
end

