-- ==== Sys2Proof/Machine/Extraction.lean ====
section
/-! DEFINITION. The raw family: EXTRACT (spec 42_extract_temper.md). -/

namespace Sys2Proof.Machine

/-- EXTRACT: answers the next tempered word (spec R100). -/
def execExtract (s : State) : Host.Outcome State Fault Refusal :=
  whenSeeded s
    (let (y, g) := extractWord s.gen
     finish (sel64 y) { s with gen := g })

end Sys2Proof.Machine
end

