-- ==== Sys2Proof/Machine/Hook.lean ====
section
/-! DEFINITION. The reading family: GETSEED, RDCUR and RDWORD, none of which writes any state (spec
45_seed_accessor_debug.md). -/

namespace Sys2Proof.Machine

/-- GETSEED: answers `MT[0]` as it stands (spec R155, R156). -/
def execGetseed (s : State) : Host.Outcome State Fault Refusal :=
  whenSeeded s (finish (readWord s.gen.mt 0) s)

/-- RDCUR: answers `IDX` (spec R157). -/
def execRdcur (s : State) : Host.Outcome State Fault Refusal :=
  whenSeeded s (finish (packCursor s.gen.idx) s)

/-- RDWORD: answers `MT[i]` untempered (spec R158). An index of 312 or more is IllegalCommand, seeded or not (spec R66
case 3, R167). The decoder lets no such index through. -/
def execRdword (index : BitVec 9) (s : State) : Host.Outcome State Fault Refusal :=
  if index.toNat < Config.N then whenSeeded s (finish (readWord s.gen.mt index.toNat) s)
  else raise .illegalCommand s

end Sys2Proof.Machine
end

