-- ==== Sys2Proof/Machine/Ieee.lean ====
section
/-! DEFINITION. IEEE 754 binary64 and binary32 as spec R135 fixes them: an operand's bits are read as an exact value, the
operation is done exactly, and the result is rounded once, to nearest, ties to even. Subnormals are kept, and there are
no flags and no traps. -/

namespace Sys2Proof.Machine

/-- A binary interchange format by its field widths (spec R135, 93 G1). -/
structure FloatFormat where
  expBits : Nat
  fracBits : Nat
  deriving DecidableEq, Repr

/-- 1 sign bit, 11 exponent bits, 52 fraction bits (spec R135). -/
def binary64 : FloatFormat := ⟨11, 52⟩

/-- 1 sign bit, 8 exponent bits, 23 fraction bits (spec R135). -/
def binary32 : FloatFormat := ⟨8, 23⟩

/-- The exponent bias, 1023 or 127 (spec 93 G1). -/
def FloatFormat.bias (f : FloatFormat) : Nat := 2 ^ (f.expBits - 1) - 1

/-- The smallest positive value of the format is `2^-scale`, and every finite value is a multiple of it. -/
def FloatFormat.scale (f : FloatFormat) : Nat := f.bias - 1 + f.fracBits

/-- The exponent field of infinities and NaNs, all ones. -/
def FloatFormat.expMax (f : FloatFormat) : Nat := 2 ^ f.expBits - 1

/-- The bits of `+infinity`. -/
def FloatFormat.infinityBits (f : FloatFormat) : Nat := f.expMax * 2 ^ f.fracBits

/-- The weight of the sign bit. -/
def FloatFormat.signWeight (f : FloatFormat) : Nat := 2 ^ (f.expBits + f.fracBits)

/-- An exact value: a NaN (its payload is no part of a value), an infinity, or `(-1)^neg * num / den` with `den` not 0.
A zero keeps its sign. -/
inductive FloatValue where
  | nan
  | infinity (neg : Bool)
  | finite (neg : Bool) (num den : Nat)
  deriving DecidableEq, Repr

/-- The exponent field of a bit pattern. -/
def FloatFormat.expField (f : FloatFormat) (bits : Nat) : Nat := bits / 2 ^ f.fracBits % 2 ^ f.expBits

/-- The fraction field of a bit pattern. -/
def FloatFormat.fracField (f : FloatFormat) (bits : Nat) : Nat := bits % 2 ^ f.fracBits

/-- The value of a bit pattern (spec 93 G1): normal `1.f * 2^(e - bias)`, subnormal `0.f * 2^(1 - bias)`, written over the
common denominator `2^scale`. -/
def FloatFormat.value (f : FloatFormat) (bits : Nat) : FloatValue :=
  let neg := decide (bits / f.signWeight % 2 = 1)
  let e := f.expField bits
  let m := f.fracField bits
  if e = f.expMax then
    if m = 0 then .infinity neg else .nan
  else if e = 0 then .finite neg m (2 ^ f.scale)
  else .finite neg ((2 ^ f.fracBits + m) * 2 ^ (e - 1)) (2 ^ f.scale)

/-- `n / d` rounded to the nearest integer, ties to the even one. -/
def roundQuotient (n d : Nat) : Nat :=
  let q := n / d
  let r := n % d
  if 2 * r < d ∨ (2 * r = d ∧ q % 2 = 0) then q else q + 1

/-- How many binary places above the format's smallest unit the last kept bit of `num / den` stands: 0 for a value whose
unit is the smallest one (subnormals and the lowest normals), else the place that leaves `fracBits + 1` bits. -/
def FloatFormat.unitShift (f : FloatFormat) (num den : Nat) : Nat := (num * 2 ^ f.scale / den).log2 - f.fracBits

/-- The bits, sign aside, of `num / den` rounded to the format (spec R135). The rounded significand counts units of
`2^(shift - scale)`. Adding it to `shift * 2^fracBits` sets the exponent field, and a significand that rounds up to the
next power of two carries into it. A result beyond the largest finite value is the infinity. -/
def FloatFormat.roundMagnitude (f : FloatFormat) (num den : Nat) : Nat :=
  let shift := f.unitShift num den
  let significand := roundQuotient (num * 2 ^ f.scale) (den * 2 ^ shift)
  Nat.min (shift * 2 ^ f.fracBits + significand) f.infinityBits

/-- The sign bit's contribution to a bit pattern. -/
def FloatFormat.signBits (f : FloatFormat) (neg : Bool) : Nat := if neg then f.signWeight else 0

/-- A NaN of the format. Its sign and payload are those of `free`; a payload of 0, which would spell an infinity, is
replaced by the top fraction bit. Every NaN of the format comes from some `free` (spec R142, 93 U5). -/
def FloatFormat.nanBits (f : FloatFormat) (free : Nat) : Nat :=
  let payload := f.fracField free
  f.signBits (decide (free / f.signWeight % 2 = 1)) + f.infinityBits
    + (if payload = 0 then 2 ^ (f.fracBits - 1) else payload)

/-- The bits of an exact value rounded to the format. `free` chooses which NaN stands for a NaN. -/
def FloatFormat.round (f : FloatFormat) (free : Nat) : FloatValue → Nat
  | .nan => f.nanBits free
  | .infinity neg => f.signBits neg + f.infinityBits
  | .finite neg num den => f.signBits neg + f.roundMagnitude num den

/-- The exact product. `0 x infinity` is a NaN. -/
def mulValue : FloatValue → FloatValue → FloatValue
  | .nan, _ => .nan
  | _, .nan => .nan
  | .infinity a, .infinity b => .infinity (a ^^ b)
  | .infinity a, .finite b n _ => if n = 0 then .nan else .infinity (a ^^ b)
  | .finite a n _, .infinity b => if n = 0 then .nan else .infinity (a ^^ b)
  | .finite a n d, .finite b n' d' => .finite (a ^^ b) (n * n') (d * d')

/-- The exact quotient. `0 / 0` and `infinity / infinity` are NaNs, and a non-zero value over zero is an infinity. -/
def divValue : FloatValue → FloatValue → FloatValue
  | .nan, _ => .nan
  | _, .nan => .nan
  | .infinity _, .infinity _ => .nan
  | .infinity a, .finite b _ _ => .infinity (a ^^ b)
  | .finite a _ _, .infinity b => .finite (a ^^ b) 0 1
  | .finite a n d, .finite b n' d' =>
    if n' = 0 then (if n = 0 then .nan else .infinity (a ^^ b)) else .finite (a ^^ b) (n * d') (d * n')

/-- The comparison `v <= 0.0` (spec R135, R141): false for a NaN, true for both zeros and everything negative. -/
def FloatValue.nonPositive : FloatValue → Bool
  | .nan => false
  | .infinity neg => neg
  | .finite neg num _ => neg || decide (num = 0)

/-- The value of a binary64 bit pattern. -/
def value64 (x : F64) : FloatValue := binary64.value x.toNat

/-- The value of a binary32 bit pattern. -/
def value32 (x : F32) : FloatValue := binary32.value x.toNat

/-- An exact value rounded to binary64. -/
def round64 (free : Word) (v : FloatValue) : F64 := BitVec.ofNat 64 (binary64.round free.toNat v)

/-- An exact value rounded to binary32. -/
def round32 (free : BitVec 32) (v : FloatValue) : F32 := BitVec.ofNat 32 (binary32.round free.toNat v)

/-- `CVT64(n)` (spec R135): an unsigned integer to binary64. -/
def cvt64 (n : Nat) : F64 := BitVec.ofNat 64 (binary64.roundMagnitude n 1)

/-- `DIV64` (spec R135). `free` is the NaN a NaN result takes. -/
def div64 (free : Word) (a b : F64) : F64 := round64 free (divValue (value64 a) (value64 b))

/-- `MUL64` (spec R135). -/
def mul64 (free : Word) (a b : F64) : F64 := round64 free (mulValue (value64 a) (value64 b))

/-- `NARROW(d)` (spec R135): binary64 to binary32. -/
def narrow (free : BitVec 32) (d : F64) : F32 := round32 free (value64 d)

/-- `MUL32` (spec R135). -/
def mul32 (free : BitVec 32) (a b : F32) : F32 := round32 free (mulValue (value32 a) (value32 b))

/-- `bound <= 0.0` for a binary64 bound (spec R141). -/
def nonPositive64 (bound : F64) : Bool := (value64 bound).nonPositive

/-- `bound <= 0.0` for a binary32 bound (spec R141). -/
def nonPositiveF32 (bound : F32) : Bool := (value32 bound).nonPositive

end Sys2Proof.Machine
end

