-- ==== Sys2Proof/Machine/Real.lean ====
section
/-! DEFINITION. The real family: UNIFORM, RANDDOUBLE and RANDFLOAT (spec 44_real_outputs.md). -/

namespace Sys2Proof.Machine

/-- The value of `UNIFORM_DRAW()` on the tempered word `t`: `DIV64(CVT64(t >> 1), CVT64(2^63 - 1))` (spec R136). `free`
is passed on to the division, whose result is never a NaN (spec R137). -/
def uniformOf (free : Word) (t : Word) : F64 := div64 free (cvt64 (sel63 t)) (cvt64 Config.realDivisor)

/-- `UNIFORM_DRAW()` (spec R136). -/
def uniformDraw (free : Word) (g : GeneratorState) : F64 × GeneratorState :=
  let (t, g') := extractWord g
  (uniformOf free t, g')

/-- UNIFORM (spec R136). -/
def execUniform (s : State) : Host.Outcome State Fault Refusal :=
  whenSeeded s
    (let (u, g) := uniformDraw (Config.freeNan64 s.gen.mt s.gen.idx 0#64) s.gen
     finish u { s with gen := g })

/-- RANDDOUBLE: the bound check, one draw, `MUL64(u, bound)` (spec R139, R141). Which NaN answers for a NaN product is
free (spec R142). -/
def execRanddouble (bound : F64) (s : State) : Host.Outcome State Fault Refusal :=
  whenSeeded s
    (if nonPositive64 bound then raise .invalidArgument s
     else
       let free := Config.freeNan64 s.gen.mt s.gen.idx bound
       let (u, g) := uniformDraw free s.gen
       finish (mul64 free u bound) { s with gen := g })

/-- RANDFLOAT: the bound check, one draw, `MUL32(NARROW(u), bound)`: narrowed first, then multiplied (spec R140, R141).
Which NaN answers for a NaN product is free (spec R142). -/
def execRandfloat (bound : F32) (s : State) : Host.Outcome State Fault Refusal :=
  whenSeeded s
    (if nonPositiveF32 bound then raise .invalidArgument s
     else
       let free := Config.freeNan32 s.gen.mt s.gen.idx bound
       let (u, g) := uniformDraw (Config.freeNan64 s.gen.mt s.gen.idx 0#64) s.gen
       finish (pack32 (mul32 free (narrow free u) bound)) { s with gen := g })

end Sys2Proof.Machine
end

