-- ==== Sys2Proof/Machine/Seeding.lean ====
section
/-! DEFINITION. The state family, part 1: SEED (spec 40_seeding.md). -/

namespace Sys2Proof.Machine

/-- `MT[i]` from `p = MT[i-1]`: `(F *64 (p ^ (p >> 62))) +64 i` (spec R81). -/
def seedNext (p : Word) (i : Nat) : Word := Config.F * (p ^^^ (p >>> Config.seedShift)) + BitVec.ofNat 64 i

/-- The next `n` seeded words after `p = MT[i-1]`, in index order: the loop of spec R81, each pass reading the word the
pass before it wrote. -/
def seedWords (p : Word) (i : Nat) : Nat → List Word
  | 0 => []
  | n + 1 => seedNext p i :: seedWords (seedNext p i) (i + 1) n

theorem seedWords_length (p : Word) (i n : Nat) : (seedWords p i n).length = n := by
  induction n generalizing p i with
  | zero => rfl
  | succ n ih => simp [seedWords, ih]

/-- All 312 words after seeding: `MT[0] = seed`, then the 311 passes `i = 1..311` (spec R81, 90_conflicts.md C2). -/
def seedArray (seed : Word) : StateArray :=
  ⟨(seed :: seedWords seed 1 (Config.N - 1)).toArray, by simp [seedWords_length, Config.N]⟩

/-- `INITIALIZE(seed)`: the seeded array and `IDX <- 312` (spec R81). It reads nothing of the old state. -/
def initializeFrom (seed : Word) : GeneratorState := ⟨seedArray seed, BitVec.ofNat 9 Config.N⟩

/-- SEED: initialises, sets `SEEDED`, answers OK with 0 (spec R80). Accepted seeded or not (spec R82). -/
def execSeed (value : Word) (s : State) : Host.Outcome State Fault Refusal :=
  finish 0#64 { s with seeded := true, gen := initializeFrom value }

end Sys2Proof.Machine
end

