-- ==== Sys2Proof/Machine/Dispatch.lean ====
section
/-! DEFINITION. The one match from a command to its meaning. -/

namespace Sys2Proof.Machine

/-- What a legal command does to an engine that is ready for it (spec R67 steps 2 to 4). -/
def exec (i : Instr) (s : State) : Host.Outcome State Fault Refusal :=
  match i with
  | .seed value => Sys2Proof.Machine.execSeed value s
  | .getseed => Sys2Proof.Machine.execGetseed s
  | .extract => Sys2Proof.Machine.execExtract s
  | .randint bound => Sys2Proof.Machine.execRandint bound s
  | .randrange min max => Sys2Proof.Machine.execRandrange min max s
  | .uniform => Sys2Proof.Machine.execUniform s
  | .randfloat bound => Sys2Proof.Machine.execRandfloat bound s
  | .randdouble bound => Sys2Proof.Machine.execRanddouble bound s
  | .rdcur => Sys2Proof.Machine.execRdcur s
  | .rdword index => Sys2Proof.Machine.execRdword index s

end Sys2Proof.Machine
end

