-- ==== Sys2Proof/Machine/Ports.lean ====
section
/-! DEFINITION. The command port, the reset input and the idle engine: what the engine does with one host action (spec
R60, R67, R190, R191). -/

namespace Sys2Proof.Machine

/-- An idle engine accepts a command word: illegal words raise IllegalCommand, the rest run (spec R66, R67). -/
def runCommand (w : CommandWord) (s : State) : Host.Outcome State Fault Refusal :=
  match decode w with
  | .error _ => raise .illegalCommand s
  | .ok i => exec i s

/-- The engine goes on by itself: a command in its rejection loop draws once more, and otherwise nothing happens (spec
R120, R181). -/
def goOn (s : State) : Host.Outcome State Fault Refusal :=
  match s.phase with
  | .inReset => .next s
  | .idle => .next s
  | .drawing job => continueJob job s

/-- A command word is at the port: an idle engine takes it. An engine in reset or executing has `cmd_ready` 0, so there
is no transfer and no response (spec R60, R190, R197). -/
def offerCommand (w : CommandWord) (s : State) : Host.Outcome State Fault Refusal :=
  match s.phase with
  | .idle => runCommand w s
  | .inReset => goOn s
  | .drawing _ => goOn s

/-- The effect of one host action on the engine. A command cut by reset leaves what the reset leaves, and no response
(spec R191). -/
def act (a : HostAction) (s : State) : Host.Outcome State Fault Refusal :=
  match a with
  | .wait => goOn s
  | .command w => offerCommand w s
  | .commandCutByReset _ => .next s.enterReset
  | .assertReset => .next s.enterReset
  | .releaseReset => .next s.leaveReset

/-- One step: the host's next action is taken, or, when the host has no more, the engine goes on by itself. -/
def stepPorts (s : State) : Host.Outcome State Fault Refusal :=
  match s.host with
  | [] => goOn s
  | a :: rest => act a { s with host := rest }

end Sys2Proof.Machine
end

