-- ==== Sys2Proof/Machine/Step.lean ====
section
/-! DEFINITION. The step function, and placing a command where the next step takes it. -/

namespace Sys2Proof.Machine

/-- One step of the machine (spec R31, R60, R67): one host action, with the whole of the command it starts. -/
def step (s : State) : Host.Outcome State Fault Refusal := stepPorts s

/-- `s` with the command word of the opcode table's numbering presented at the command port of a ready engine, so that the
next step accepts and runs it. -/
def State.withFetchWord (s : State) (nbits w : Nat) : State :=
  { s with phase := .idle, host := .command (tableWord nbits w) :: s.host }

end Sys2Proof.Machine
end

