-- ==== Sys2Proof/Machine/Script.lean ====
section
/-! DEFINITION. Command scripts (spec R69) and the pseudo-commands (spec R70): a script line as data, the commands it
stands for, the host actions those are, and a command written back as a line. Its text is in ScriptText.lean. -/

namespace Sys2Proof.Machine

/-- An operand of a script line (spec R69). -/
inductive Operand where
  /-- An integer literal. -/
  | int (v : Int)
  /-- A decimal or hexadecimal floating-point literal, the exact value `(-1)^neg * num / den`. -/
  | real (neg : Bool) (num den : Nat)
  /-- `bits:0x...`, the bit pattern of a floating-point operand. -/
  | bits (pattern : Nat)
  deriving DecidableEq, Repr

/-- An integer literal as a `u64`: in range or no operand at all. -/
def asU64 (v : Int) : Option Word := if 0 ≤ v ∧ v < 2 ^ 64 then some (BitVec.ofInt 64 v) else none

/-- An integer literal as an `i32`. -/
def asI32 (v : Int) : Option I32 := if -2 ^ 31 ≤ v ∧ v < 2 ^ 31 then some (BitVec.ofInt 32 v) else none

/-- An integer literal as an RDWORD index. -/
def asIndex (v : Int) : Option (BitVec 9) := if 0 ≤ v ∧ v < Config.N then some (BitVec.ofInt 9 v) else none

/-- The bits of a literal "that converts exactly" (spec R69), none where rounding would change its value. -/
def exactBits (f : FloatFormat) (neg : Bool) (num den : Nat) : Option Nat :=
  if den = 0 then none
  else
    let bits := f.round 0 (.finite neg num den)
    match f.value bits with
    | .finite _ num' den' => if num' * den = num * den' then some bits else none
    | .infinity _ => none
    | .nan => none

/-- A floating-point operand of the given format as a bit pattern. An integer literal stands for its value. -/
def asFloat (f : FloatFormat) : Operand → Option Nat
  | .int v => exactBits f (decide (v < 0)) v.natAbs 1
  | .real neg num den => exactBits f neg num den
  | .bits pattern => if pattern < 2 * f.signWeight then some pattern else none

/-- The command a mnemonic and its operands spell, in the order of the source's argument lists: `min` before `max` (spec
R69). -/
def assemble : Mnemonic → List Operand → Option Instr
  | .seed, [.int v] => (asU64 v).map .seed
  | .getseed, [] => some .getseed
  | .extract, [] => some .extract
  | .randint, [.int b] => (asI32 b).map .randint
  | .randrange, [.int lo, .int hi] =>
    match asI32 lo, asI32 hi with
    | some lo, some hi => some (.randrange lo hi)
    | _, _ => none
  | .uniform, [] => some .uniform
  | .randfloat, [b] => (asFloat binary32 b).map fun bits => .randfloat (BitVec.ofNat 32 bits)
  | .randdouble, [b] => (asFloat binary64 b).map fun bits => .randdouble (BitVec.ofNat 64 bits)
  | .rdcur, [] => some .rdcur
  | .rdword, [.int i] => (asIndex i).map .rdword
  | _, _ => none

/-- What a script line asks for: a command of the map or a pseudo-command (spec R70). -/
inductive ScriptRequest where
  | command (m : Mnemonic) (operands : List Operand)
  | construct (seed : Option Word)
  | reset
  deriving DecidableEq, Repr

/-- A script line: a request and the response it expects, if it names one (spec R69). -/
structure ScriptLine where
  request : ScriptRequest
  expected : Option Response
  deriving DecidableEq, Repr

/-- The host actions of a request (spec R70): CONSTRUCT is SEED, with the host's `DEFAULT_SEED` where it names no seed
(spec R83, R193), and RESET asserts the reset input and releases it. -/
def ScriptRequest.actions : ScriptRequest → Option (List HostAction)
  | .command m operands => (assemble m operands).map fun i => [.command (encode i)]
  | .construct (some seed) => some [.command (encode (.seed seed))]
  | .construct none => some [.command (encode (.seed Config.defaultSeed))]
  | .reset => some [.assertReset, .releaseReset]

/-- The host actions of a script, none if some line is no line (spec R69). -/
def scriptActions : List ScriptLine → Option (List HostAction)
  | [] => some []
  | line :: rest =>
    match line.request.actions, scriptActions rest with
    | some here, some later => some (here ++ later)
    | _, _ => none

/-- The mnemonic as the opcode map spells it (spec R63, R69). -/
def mnemonicName : Mnemonic → String
  | .seed => "SEED"
  | .getseed => "GETSEED"
  | .extract => "EXTRACT"
  | .randint => "RANDINT"
  | .randrange => "RANDRANGE"
  | .uniform => "UNIFORM"
  | .randfloat => "RANDFLOAT"
  | .randdouble => "RANDDOUBLE"
  | .rdcur => "RDCUR"
  | .rdword => "RDWORD"

/-- The operands that write a command as a script line. -/
def scriptOperands : Instr → List Operand
  | .seed value => [.int value.toNat]
  | .getseed => []
  | .extract => []
  | .randint bound => [.int bound.toInt]
  | .randrange min max => [.int min.toInt, .int max.toInt]
  | .uniform => []
  | .randfloat bound => [.bits bound.toNat]
  | .randdouble bound => [.bits bound.toNat]
  | .rdcur => []
  | .rdword index => [.int index.toNat]

/-- A command as a script line without an expected response (spec R69). -/
def scriptLine (i : Instr) : ScriptLine := ⟨.command i.mnemonic (scriptOperands i), none⟩

end Sys2Proof.Machine
end

