-- ==== Sys2Proof/Safety.lean ====
section
/-! DEFINITION. The terms claims are made in: legal states, the output stream of a seed, the draws of a rejection loop,
and what it means that nothing can be told from the contents of an unseeded engine. -/

namespace Sys2Proof.Machine

/-! ## The output stream (spec R106) -/

/-- The generator state after `k` calls of `EXTRACT_WORD()`. -/
def afterExtractions : Nat → GeneratorState → GeneratorState
  | 0, g => g
  | k + 1, g => afterExtractions k (extractWord g).2

/-- `S_b`: the state array after `b` twists applied to the seeded array (spec R106). -/
def batchArray (seed : Word) : Nat → StateArray
  | 0 => seedArray seed
  | b + 1 => twistSteps Config.N (batchArray seed b)

/-- `MT` and `IDX` are those of some seed after some number of extractions. -/
def GeneratorState.OnStream (g : GeneratorState) : Prop := ∃ seed k, g = afterExtractions k (initializeFrom seed)

/-- Whenever the engine is seeded, it stands somewhere on the output stream of some seed. -/
def State.OnStream (s : State) : Prop := s.seeded = true → s.gen.OnStream

/-! ## The draws of a rejection loop (spec R117 to R120) -/

/-- `bits` of the draw that follows `k` earlier draws, as a number (spec R117). -/
def drawBits (g : GeneratorState) (k : Nat) : Nat := (sel31 (extractWord (afterExtractions k g)).1).toNat

/-- The acceptance condition in exact integers (spec R118). -/
abbrev Accepts (bound bits : Nat) : Prop := (bits - bits % bound) + (bound - 1) ≤ 2 ^ 31 - 1

/-- The loop's first accepted draw comes after `d` rejected ones (spec R120). -/
def FirstAccepted (bound : Nat) (g : GeneratorState) (d : Nat) : Prop :=
  (∀ k < d, ¬ Accepts bound (drawBits g k)) ∧ Accepts bound (drawBits g d)

/-- No draw of the loop is ever accepted: the hang of spec R120 and R197. -/
def NeverAccepts (bound : Nat) (g : GeneratorState) : Prop := ∀ k, ¬ Accepts bound (drawBits g k)

/-! ## Argument checks (spec R166) -/

/-- The argument check fails, as the table of spec R166 lists the cases, on exact integers and on bit patterns: the
binary32 and binary64 bounds that fail are `+0.0` and every pattern from `-0.0` to `-infinity` (spec R141). -/
def ArgumentCheckFails : Instr → Prop
  | .randint bound => bound.toInt ≤ 0
  | .randrange min max => max.toInt ≤ min.toInt ∨ 2 ^ 31 ≤ max.toInt - min.toInt
  | .randfloat bound => bound = 0#32 ∨ (0x80000000#32 ≤ bound ∧ bound ≤ 0xFF800000#32)
  | .randdouble bound => bound = 0#64 ∨ (0x8000000000000000#64 ≤ bound ∧ bound ≤ 0xFFF0000000000000#64)
  | .seed _ => False
  | .getseed => False
  | .extract => False
  | .uniform => False
  | .rdcur => False
  | .rdword _ => False

/-! ## Real-valued results (spec R137) -/

/-- The bits of `u = CVT64(t >> 1) * 2^-63`, the exponent field of `CVT64` lowered by 63 (spec R137). -/
def uniformBits (t : Word) : F64 := if sel63 t = 0 then 0#64 else cvt64 (sel63 t) - (63#64 <<< 52)

/-- The value of the finite non-negative bit pattern `bits`, in units of `2^-scale`. -/
def FloatFormat.units (f : FloatFormat) (bits : Nat) : Nat :=
  if f.expField bits = 0 then f.fracField bits else (2 ^ f.fracBits + f.fracField bits) * 2 ^ (f.expField bits - 1)

/-! ## Legal states and safe steps -/

/-- The states the spec's rules allow: `IDX` in 0..312 (spec R25), never seeded while in reset (spec R190), and only a
seeded engine with a positive bound in a rejection loop (spec R115, R122). -/
structure State.Legal (s : State) : Prop where
  cursor_le : s.gen.idx.toNat ≤ Config.N
  reset_unseeded : s.phase = .inReset → s.seeded = false
  drawing_seeded : ∀ job, s.phase = .drawing job → s.seeded = true
  drawing_positive : ∀ job, s.phase = .drawing job → 0 < job.bound.toInt

/-- The step from `s` answers a next state: it neither faults nor is refused. -/
def State.StepsOn (s : State) : Prop := ∃ t, step s = .next t

/-- `t` is the state `n` steps after `s`. -/
def State.StepsTo : Nat → State → State → Prop
  | 0, s, t => s = t
  | n + 1, s, t => ∃ u, step s = .next u ∧ u.StepsTo n t

/-- A command that leaves a seeded engine where it stands on the stream: it only reads, or it fails its argument check
(spec R156, R166). RDWORD of any index is among them, since one out of range is an illegal command. -/
def CommandDrawsNothing (i : Instr) : Prop :=
  i.mnemonic = .getseed ∨ i.mnemonic = .rdcur ∨ i.mnemonic = .rdword ∨ ArgumentCheckFails i

/-- What the host can do to a seeded idle engine without a draw: nothing, a release of a reset that is not asserted, an
illegal word, or a command that draws nothing (spec R156, R167). -/
def HostAction.DrawsNothing : HostAction → Prop
  | .wait => True
  | .command w => ∀ i, decode w = .ok i → CommandDrawsNothing i
  | .commandCutByReset _ => False
  | .assertReset => False
  | .releaseReset => True

/-- The next step takes a SEED command (spec R60, R80). -/
def State.AcceptsSeed (s : State) : Prop :=
  s.phase = .idle ∧ ∃ w seed rest, s.host = .command w :: rest ∧ decode w = .ok (.seed seed)

/-- Reset is asserted during the next step (spec R190, R191). -/
def State.ResetIsAsserted (s : State) : Prop :=
  ∃ rest, s.host = .assertReset :: rest ∨ ∃ w, s.host = .commandCutByReset w :: rest

/-- `s` and `t` differ at most in the `MT` and `IDX` of an unseeded engine (spec R32). -/
structure State.AgreesWhereDefined (s t : State) : Prop where
  seeded_eq : s.seeded = t.seeded
  phase_eq : s.phase = t.phase
  host_eq : s.host = t.host
  responses_eq : s.responses = t.responses
  gen_eq : s.seeded = true → s.gen = t.gen

end Sys2Proof.Machine
end

