-- ==== Sys2Proof/Certificates/Slice0/Obligations.lean ====
section
/-! DEFINITION. The statements about the engine that the provers are asked to settle. -/

open Sys2Proof Sys2Proof.Machine

/-! ## Encoding -/

/-- No bit of an operand is dropped: a well-formed command's word decodes to that command (spec R61 to R63). -/
def Obligations.DecodeOfEncodeIsTheCommand : Prop :=
  ∀ i : Instr, i.WellFormed → decode (encode i) = .ok i

/-- Every legal word has one spelling: it is the encoding of the well-formed command it decodes to (spec R62, R66). -/
def Obligations.LegalWordIsTheEncodingOfItsCommand : Prop :=
  ∀ (c : CommandWord) (i : Instr), decode c = .ok i → i.WellFormed ∧ encode i = c

/-- Decoding agrees with the opcode map: a word is legal exactly when it has the fixed bits of a row and, for RDWORD, an
index of at most 311, and it decodes to a command of that row (spec R63). -/
def Obligations.DecodingFollowsTheOpcodeMap : Prop :=
  (∀ c : CommandWord, (∃ i, decode c = .ok i) ↔
    ∃ row ∈ opcodeMap, row.Matches c ∧ (row.mnemonic = .rdword → (argIndex (argField c)).toNat ≤ 311)) ∧
  (∀ (c : CommandWord) (i : Instr), decode c = .ok i → ∃ row ∈ opcodeMap, row.mnemonic = i.mnemonic ∧ row.Matches c)

/-- No word has the fixed bits of two rows of the opcode map (spec R63). -/
def Obligations.OpcodeRowsAreDisjoint : Prop :=
  ∀ (c : CommandWord), ∀ r ∈ opcodeMap, ∀ r' ∈ opcodeMap, r.Matches c → r'.Matches c → r = r'

/-- Command words the spec prints decode to the commands it prints beside them (spec R69, 95_test_vectors.md). -/
def Obligations.PrintedCommandWordsDecode : Prop :=
  decode 0x010000000000001571#72 = .ok (.seed 5489#64) ∧
  decode 0x020000000000000000#72 = .ok .getseed ∧
  decode 0x2000000000FFFFFFFB#72 = .ok (.randint (BitVec.ofInt 32 (-5))) ∧
  decode 0x2100000005FFFFFFFB#72 = .ok (.randrange (BitVec.ofInt 32 (-5)) 5#32) ∧
  decode 0x310000000040200000#72 = .ok (.randfloat 0x40200000#32) ∧
  decode 0x324004000000000000#72 = .ok (.randdouble 0x4004000000000000#64) ∧
  decode 0x410000000000000137#72 = .ok (.rdword 311#9) ∧
  decode 0x410000000000000138#72 = .error (.indexOutOfRange 312#9) ∧
  decode 0x100000000000000001#72 = .error (.reservedBitSet 0x10#8) ∧
  decode 0x000000000000000000#72 = .error (.unknownOpcode 0x00#8)

/-- The response word is `{status, data}` with the status codes of spec R65, and no two responses share a word (spec
R64, R65). -/
def Obligations.ResponseWordHoldsStatusAndData : Prop :=
  (∀ r : Response, r.word.extractLsb' 64 8 = r.status.code ∧ r.word.extractLsb' 0 64 = r.data) ∧
  (∀ r r' : Response, r.word = r'.word → r = r') ∧
  Status.code .ok = 0x00#8 ∧ Status.code .invalidArgument = 0x01#8 ∧
  Status.code .illegalCommand = 0x02#8 ∧ Status.code .unseeded = 0x03#8

/-- A well-formed command written as a script line assembles back to its own command word (spec R69). -/
def Obligations.ScriptLineSpellsItsCommand : Prop :=
  ∀ i : Instr, i.WellFormed → (scriptLine i).request.actions = some [.command (encode i)]

/-- The three pseudo-commands expand as the spec says (spec R70). -/
def Obligations.PseudoCommandsExpand : Prop :=
  (∀ seed : Word, (ScriptRequest.construct (some seed)).actions = some [.command (encode (.seed seed))]) ∧
  (ScriptRequest.construct none).actions = some [.command (encode (.seed Config.defaultSeed))] ∧
  ScriptRequest.reset.actions = some [.assertReset, .releaseReset]

/-! ## The step and the ports -/

/-- A step of an idle engine with a legal command word at its port is `exec` of the decoded command, with that word
taken from what the host has still to do (spec R50, R60, R67). -/
def Obligations.StepRunsTheDecodedCommand : Prop :=
  ∀ (s : State) (w : CommandWord) (rest : List HostAction) (i : Instr),
    s.phase = .idle → s.host = .command w :: rest → decode w = .ok i → step s = exec i { s with host := rest }

/-- The word of a well-formed command, placed by `withFetchWord` in the opcode table's numbering, is what the very next
step runs, whatever the state (the model's own interface). -/
def Obligations.FetchedWordRunsItsCommand : Prop :=
  ∀ (s : State) (i : Instr), i.WellFormed →
    decodeTableWord 72 (encode i).toNat = some i ∧
    step (s.withFetchWord 72 (encode i).toNat) = exec i { s with phase := .idle }

/-- A word that has the fixed bits of no row of the opcode map, or RDWORD's with an index of 312 or more, is answered
ILLEGAL_COMMAND, seeded or not, and changes nothing else (spec R167). -/
def Obligations.IllegalWordAnswersIllegalCommand : Prop :=
  ∀ (s : State) (w : CommandWord) (rest : List HostAction), s.phase = .idle → s.host = .command w :: rest →
    (∀ row ∈ opcodeMap, row.Matches w → row.mnemonic = .rdword ∧ 312 ≤ (argIndex (argField w)).toNat) →
    step s = .next { s with host := rest, responses := s.responses ++ [⟨.illegalCommand, 0#64⟩] }

/-- The status of a response follows the order of the checks: illegal word, then unseeded, then argument check, then
execution. A command that passes all of them answers OK or, in its rejection loop, nothing yet (spec R67, R171). -/
def Obligations.StatusFollowsTheOrderOfChecks : Prop :=
  ∀ (s : State) (w : CommandWord) (rest : List HostAction), s.phase = .idle → s.host = .command w :: rest →
    (∀ e, decode w = .error e →
      step s = .next { s with host := rest, responses := s.responses ++ [⟨.illegalCommand, 0#64⟩] }) ∧
    (∀ i, decode w = .ok i → i.mnemonic ≠ .seed → s.seeded = false →
      step s = .next { s with host := rest, responses := s.responses ++ [⟨.unseeded, 0#64⟩] }) ∧
    (∀ i, decode w = .ok i → s.seeded = true → ArgumentCheckFails i →
      step s = .next { s with host := rest, responses := s.responses ++ [⟨.invalidArgument, 0#64⟩] }) ∧
    (∀ i, decode w = .ok i → (i.mnemonic = .seed ∨ s.seeded = true) → ¬ ArgumentCheckFails i →
      ∃ t, step s = .next t ∧ ((t.phase = .idle ∧ ∃ d, t.responses = s.responses ++ [⟨.ok, d⟩]) ∨
        ((i.mnemonic = .randint ∨ i.mnemonic = .randrange) ∧ (∃ job, t.phase = .drawing job) ∧
          t.responses = s.responses)))

/-- An accepted command gives exactly one response, in the step that accepts it, and leaves the engine idle. The only
exception is a bounded-integer command still in its rejection loop, which has given none (spec R60). -/
def Obligations.OneResponseForEachAcceptedCommand : Prop :=
  ∀ (s : State) (w : CommandWord) (rest : List HostAction), s.phase = .idle → s.host = .command w :: rest →
    ∃ t, step s = .next t ∧ t.host = rest ∧
      ((t.phase = .idle ∧ ∃ r, t.responses = s.responses ++ [r]) ∨
       ((opField w = 0x20#8 ∨ opField w = 0x21#8) ∧ (∃ job, t.phase = .drawing job) ∧ t.responses = s.responses))

/-- A response that reports an error is the only trace of its command: `SEEDED`, `MT`, `IDX` and the phase are as before
and the data is 0 (spec R170). -/
def Obligations.ErrorResponseLeavesNoTrace : Prop :=
  ∀ (s t : State) (w : CommandWord) (rest : List HostAction) (r : Response),
    s.phase = .idle → s.host = .command w :: rest → step s = .next t → t.responses = s.responses ++ [r] →
    r.status ≠ .ok → r.data = 0#64 ∧ t = { s with host := rest, responses := s.responses ++ [r] }

/-- Asserting and releasing reset leaves any engine unseeded and idle, with no response given (spec R190). -/
def Obligations.ResetLeavesTheEngineUnseededAndIdle : Prop :=
  ∀ (s : State) (rest : List HostAction), s.host = .assertReset :: .releaseReset :: rest →
    ∃ t u, step s = .next t ∧ t.phase = .inReset ∧ t.seeded = false ∧ t.responses = s.responses ∧
      step t = .next u ∧ u.phase = .idle ∧ u.seeded = false ∧ u.responses = s.responses ∧ u.host = rest

/-- While reset is asserted the engine accepts no command and emits no response (spec R190). -/
def Obligations.NoCommandIsAcceptedInReset : Prop :=
  ∀ (s : State) (w : CommandWord) (rest : List HostAction), s.phase = .inReset → s.host = .command w :: rest →
    step s = .next { s with host := rest }

/-- A command cut by reset gives no response and leaves the engine unseeded and in reset, whatever it was and whatever
the engine was doing (spec R191). -/
def Obligations.CommandCutByResetGivesNoResponse : Prop :=
  ∀ (s : State) (w : CommandWord) (rest : List HostAction), s.host = .commandCutByReset w :: rest →
    ∃ t, step s = .next t ∧ t.seeded = false ∧ t.phase = .inReset ∧ t.responses = s.responses ∧ t.host = rest

/-! ## SEED -/

/-- SEED completes in every state, sets `SEEDED`, and fills `MT` by the recurrence from the seed alone, with `IDX` at
312 (spec R81). -/
def Obligations.SeedFillsTheArrayByTheRecurrence : Prop :=
  ∀ (seed : Word) (s : State), ∃ g : GeneratorState,
    exec (.seed seed) s =
      .next { s with seeded := true, gen := g, responses := s.responses ++ [⟨.ok, 0#64⟩] } ∧
    g.idx = 312#9 ∧ readWord g.mt 0 = seed ∧
    ∀ i, 1 ≤ i → i ≤ 311 → readWord g.mt i =
      6364136223846793005#64 * (readWord g.mt (i - 1) ^^^ (readWord g.mt (i - 1) >>> 62)) + BitVec.ofNat 64 i

/-- The state after SEED depends on the seed alone, different seeds give different arrays, and none is all zero (spec
R82). -/
def Obligations.SeededStateDependsOnTheSeedAlone : Prop :=
  (∀ (seed : Word) (s s' : State), s.phase = s'.phase → s.host = s'.host → s.responses = s'.responses →
    exec (.seed seed) s = exec (.seed seed) s') ∧
  (∀ seed seed' : Word, seed ≠ seed' → (initializeFrom seed).mt ≠ (initializeFrom seed').mt) ∧
  (∀ seed : Word, ∃ i, i < 312 ∧ readWord (initializeFrom seed).mt i ≠ 0#64)

/-! ## The twist -/

/-- `TWIST()` is the loop of spec R91: 312 steps in ascending order on one array, each reading what the steps before it
wrote, then `IDX = 0`. -/
def Obligations.TwistIsTheSequentialLoop : Prop :=
  ∀ g : GeneratorState, ∃ a : Nat → StateArray, a 0 = g.mt ∧ twist g = ⟨a 312, 0#9⟩ ∧
    ∀ i < 312,
      (∀ j < 312, j ≠ i → readWord (a (i + 1)) j = readWord (a i) j) ∧
      ∃ x xA : Word,
        x = (readWord (a i) i &&& 0x8000000000000000#64) |||
          (readWord (a i) ((i + 1) % 312) &&& 0x000000007FFFFFFF#64) ∧
        xA = (if x.getLsbD 0 then (x >>> 1) ^^^ 0xB5026F5AA96619E9#64 else x >>> 1) ∧
        readWord (a (i + 1)) i = readWord (a i) ((i + 156) % 312) ^^^ xA

/-- The in-place twist equals its two-array form: words 0..155 use old offset words, words 156..310 new ones, and word
311 also the new word 0 (spec R93). -/
def Obligations.TwistEqualsItsTwoArrayForm : Prop :=
  ∀ old : StateArray,
    (∀ i < 156, readWord (twistSteps 312 old) i =
      readWord old (i + 156) ^^^ twistMix (readWord old i) (readWord old (i + 1))) ∧
    (∀ i, 156 ≤ i → i ≤ 310 → readWord (twistSteps 312 old) i =
      readWord (twistSteps 312 old) (i - 156) ^^^ twistMix (readWord old i) (readWord old (i + 1))) ∧
    readWord (twistSteps 312 old) 311 =
      readWord (twistSteps 312 old) 155 ^^^ twistMix (readWord old 311) (readWord (twistSteps 312 old) 0)

/-- `G(u, l)` bit by bit: `u[63]` goes to bit 62, `l[30:1]` to bits 29..0, and `MATRIX_A` is added when `l[0]` is 1
(spec R95). -/
def Obligations.TwistMixBitByBit : Prop :=
  ∀ (u l : Word) (i : Nat), i < 64 → (twistMix u l).getLsbD i =
    (((decide (i = 62) && u.getLsbD 63) || (decide (i < 30) && l.getLsbD (i + 1))) ^^
      (l.getLsbD 0 && (0xB5026F5AA96619E9#64).getLsbD i))

/-- Only SEED and the twist write state words: any other command leaves `MT` as some number of whole twists of it (spec
R21). -/
def Obligations.OnlySeedAndTwistWriteTheArray : Prop :=
  ∀ (i : Instr) (s t : State), exec i s = .next t → i.mnemonic ≠ .seed →
    ∃ n, t.gen.mt = (twistSteps 312)^[n] s.gen.mt

/-! ## Extraction, tempering, selection -/

/-- EXTRACT completes on a seeded engine: below 312 it answers the tempered word at the cursor and moves the cursor by
one. At 312 it twists first, answers the new word 0 tempered and leaves the cursor at 1 (spec R100, R101). -/
def Obligations.ExtractAnswersTheTemperedWord : Prop :=
  ∀ s : State, s.seeded = true →
    (s.gen.idx.toNat < 312 → exec .extract s = .next { s with
      gen := ⟨s.gen.mt, s.gen.idx + 1#9⟩
      responses := s.responses ++ [⟨.ok, temper (readWord s.gen.mt s.gen.idx.toNat)⟩] }) ∧
    (312 ≤ s.gen.idx.toNat → exec .extract s = .next { s with
      gen := ⟨(twist s.gen).mt, 1#9⟩
      responses := s.responses ++ [⟨.ok, temper (readWord (twist s.gen).mt 0)⟩] })

/-- `TEMPER` is the four steps of spec R102 in order. -/
def Obligations.TemperIsTheFourSteps : Prop :=
  ∀ y : Word, ∃ y1 y2 y3 : Word,
    y1 = y ^^^ ((y >>> 29) &&& 0x5555555555555555#64) ∧
    y2 = y1 ^^^ ((y1 <<< 17) &&& 0x71D67FFFEDA60000#64) ∧
    y3 = y2 ^^^ ((y2 <<< 37) &&& 0xFFF7EEE000000000#64) ∧
    temper y = y3 ^^^ (y3 >>> 43)

/-- `TEMPER` is linear over exclusive or and a bijection, and so is each of its steps (spec R103). -/
def Obligations.TemperIsALinearBijection : Prop :=
  temper 0#64 = 0#64 ∧ (∀ a b : Word, temper (a ^^^ b) = temper a ^^^ temper b) ∧
  Function.Bijective temper1 ∧ Function.Bijective temper2 ∧ Function.Bijective temper3 ∧
  Function.Bijective temper4 ∧ Function.Bijective temper

/-- The slices of the output selector: all 64 bits, bits 63..1 and bits 63..33 of the tempered word (spec R105). -/
def Obligations.SelectorTakesTheTopBits : Prop :=
  ∀ t : Word, sel64 t = t ∧ sel63 t = t.toNat / 2 ∧ (sel31 t).toNat = t.toNat / 2 ^ 33 ∧
    0 ≤ (sel31 t).toInt ∧ (sel31 t).toInt ≤ 2 ^ 31 - 1

/-- Extraction `k` after SEED returns word `(k-1) mod 312` of batch `(k-1)/312 + 1` tempered, leaves the cursor one past
it, and runs a twist exactly when `(k-1) mod 312 = 0` (spec R106, R90). -/
def Obligations.ExtractionStandsAtItsPlaceInTheStream : Prop :=
  ∀ (seed : Word) (k : Nat), 1 ≤ k → ∃ g : GeneratorState,
    g = afterExtractions (k - 1) (initializeFrom seed) ∧
    (312 ≤ g.idx.toNat ↔ (k - 1) % 312 = 0) ∧
    (extractWord g).1 = temper (readWord (batchArray seed ((k - 1) / 312 + 1)) ((k - 1) % 312)) ∧
    (extractWord g).2.mt = batchArray seed ((k - 1) / 312 + 1) ∧
    (extractWord g).2.idx.toNat = (k - 1) % 312 + 1

/-! ## GETSEED, RDCUR, RDWORD -/

/-- GETSEED, RDCUR and RDWORD complete on a seeded engine, answer `MT[0]`, `IDX` and `MT[i]`, and write nothing. RDWORD
of an index of 312 or more is IllegalCommand in every state (spec R155, R157, R158). -/
def Obligations.ReadingCommandsAnswerAndWriteNothing : Prop :=
  ∀ s : State,
    (s.seeded = true →
      exec .getseed s = .next { s with responses := s.responses ++ [⟨.ok, readWord s.gen.mt 0⟩] } ∧
      (∃ d : Word, d.toNat = s.gen.idx.toNat ∧
        exec .rdcur s = .next { s with responses := s.responses ++ [⟨.ok, d⟩] }) ∧
      (∀ index : BitVec 9, index.toNat ≤ 311 → exec (.rdword index) s =
        .next { s with responses := s.responses ++ [⟨.ok, readWord s.gen.mt index.toNat⟩] })) ∧
    (∀ index : BitVec 9, 312 ≤ index.toNat → exec (.rdword index) s =
      .next { s with responses := s.responses ++ [⟨.illegalCommand, 0#64⟩] })

/-- GETSEED returns the seed right after SEED, and still after any actions of the host that draw nothing: reading
commands, commands that answer an error, illegal words, or none at all. After one extraction it returns the word the
first twist put in its place, and from then on whatever the latest twist left in `MT[0]` (spec R156, R94). -/
def Obligations.GetseedReturnsTheSeedUntilTheFirstDraw : Prop :=
  ∀ (seed : Word) (s : State),
    (∃ t u, exec (.seed seed) s = .next t ∧ exec .getseed t = .next u ∧
      u.responses = s.responses ++ [⟨.ok, 0#64⟩, ⟨.ok, seed⟩]) ∧
    (∃ t u v y, exec (.seed seed) s = .next t ∧ exec .extract t = .next u ∧ exec .getseed u = .next v ∧
      v.responses = s.responses ++ [⟨.ok, 0#64⟩, ⟨.ok, y⟩,
        ⟨.ok, readWord (seedArray seed) 156 ^^^ twistMix seed (readWord (seedArray seed) 1)⟩]) ∧
    (∀ (actions rest : List HostAction), s.phase = .idle → (∀ a ∈ actions, a.DrawsNothing) →
      s.host = .command (encode (.seed seed)) :: (actions ++ .command (encode .getseed) :: rest) →
      ∃ t, s.StepsTo (actions.length + 1) t ∧ t.seeded = true ∧ t.gen = initializeFrom seed ∧
        step t = .next { t with host := rest, responses := t.responses ++ [⟨.ok, seed⟩] }) ∧
    (∀ k, 1 ≤ k → s.seeded = true → s.gen = afterExtractions k (initializeFrom seed) →
      exec .getseed s = .next { s with
        responses := s.responses ++ [⟨.ok, readWord (batchArray seed ((k - 1) / 312 + 1)) 0⟩] })

/-! ## Bounded integers -/

/-- RANDINT with a bound that is not positive as an `i32`, which is the patterns 0 and from `0x80000000`, answers
INVALID_ARGUMENT on a seeded engine and draws nothing (spec R116). -/
def Obligations.RandintRejectsNonPositiveBounds : Prop :=
  ∀ (bound : I32) (s : State), s.seeded = true →
    (bound.toInt ≤ 0 ↔ bound = 0#32 ∨ 0x80000000 ≤ bound.toNat) ∧
    (bound.toInt ≤ 0 →
      exec (.randint bound) s = .next { s with responses := s.responses ++ [⟨.invalidArgument, 0#64⟩] })

/-- RANDRANGE passes its checks exactly when `1 <= max - min <= 2^31 - 1` in exact integers. Otherwise it answers
INVALID_ARGUMENT and changes nothing (spec R123, R124). -/
def Obligations.RandrangeAcceptsExactlyTheRangesThatFit : Prop :=
  ∀ (min max : I32) (s : State), s.seeded = true →
    (exec (.randrange min max) s = .next { s with responses := s.responses ++ [⟨.invalidArgument, 0#64⟩] } ↔
      ¬ (1 ≤ max.toInt - min.toInt ∧ max.toInt - min.toInt ≤ 2 ^ 31 - 1))

/-- The comparator: `t` is the wrapped 32-bit sum, a draw is accepted when `t >= 0`, and for the values a draw can have
that is `(bits - val) + (bound - 1) <= 2^31 - 1` in exact integers (spec R118). -/
def Obligations.ComparatorAcceptsExactlyWhenTheSumFits : Prop :=
  ∀ bits val bound : I32,
    comparatorSum bits val bound = (bits - val) + (bound - 1#32) ∧
    (accept bits val bound = true ↔ 0 ≤ (comparatorSum bits val bound).toInt) ∧
    (0 ≤ val.toInt → val.toInt ≤ bits.toInt → 1 ≤ bound.toInt →
      (accept bits val bound = true ↔ (bits.toInt - val.toInt) + (bound.toInt - 1) ≤ 2 ^ 31 - 1))

/-- What the comparator means: accepted exactly the `bits` below `q * bound` with `q = 2^31 / bound`. That is more than
half of all draws, all of them where the bound divides `2^31`, and among them every result has exactly `q` values of
`bits` (spec R119). -/
def Obligations.AcceptedDrawsAreUniform : Prop :=
  ∀ bound : I32, 0 < bound.toInt → ∃ q : Nat, q = 2 ^ 31 / bound.toNat ∧
    (∀ bits < 2 ^ 31, accept (BitVec.ofNat 32 bits) (mod32 (BitVec.ofNat 32 bits) bound) bound = true ↔
      bits < q * bound.toNat) ∧
    2 ^ 30 < q * bound.toNat ∧
    (bound.toNat ∣ 2 ^ 31 → q * bound.toNat = 2 ^ 31) ∧
    (∀ r < bound.toNat, ((Finset.range (2 ^ 31)).filter fun bits =>
      accept (BitVec.ofNat 32 bits) (mod32 (BitVec.ofNat 32 bits) bound) bound = true ∧
        bits % bound.toNat = r).card = q)

/-- RANDINT with a positive bound answers the value of its first accepted draw, after however many rejected ones, and has
then consumed exactly those draws (spec R115, R117, R120). -/
def Obligations.RandintAnswersItsFirstAcceptedDraw : Prop :=
  ∀ (bound : I32) (s : State) (d : Nat), s.seeded = true → 0 < bound.toInt →
    FirstAccepted bound.toNat s.gen d →
    exec (.randint bound) s = .next { s with
      gen := afterExtractions (d + 1) s.gen
      phase := .idle
      responses := s.responses ++ [⟨.ok, BitVec.ofNat 64 (drawBits s.gen d % bound.toNat)⟩] }

/-- RANDRANGE over a range that fits answers `min` plus the value of its first accepted draw, as an `i32` pattern with
the upper half 0 (spec R122, R125). -/
def Obligations.RandrangeAnswersItsFirstAcceptedDraw : Prop :=
  ∀ (min max : I32) (s : State) (d : Nat), s.seeded = true →
    1 ≤ max.toInt - min.toInt → max.toInt - min.toInt ≤ 2 ^ 31 - 1 →
    FirstAccepted (max.toInt - min.toInt).toNat s.gen d →
    exec (.randrange min max) s = .next { s with
      gen := afterExtractions (d + 1) s.gen
      phase := .idle
      responses := s.responses ++
        [⟨.ok, (BitVec.ofInt 32
          (min.toInt + (drawBits s.gen d % (max.toInt - min.toInt).toNat : Nat))).setWidth 64⟩] }

/-- Bounds that divide `2^31` draw exactly one word and always complete: RANDINT with a power of two answers the low bits
of the draw (spec R119, R120). -/
def Obligations.PowerOfTwoBoundsDrawOnce : Prop :=
  ∀ (k : Nat) (s : State), k ≤ 30 → s.seeded = true →
    exec (.randint (BitVec.ofNat 32 (2 ^ k))) s = .next { s with
      gen := (extractWord s.gen).2
      phase := .idle
      responses := s.responses ++ [⟨.ok, BitVec.ofNat 64 (drawBits s.gen 0 % 2 ^ k)⟩] }

/-- The result of a bounded-integer command is in its range: RANDINT's in `[0, bound)`, RANDRANGE's in `[min, max)` as an
`i32`, and the upper half of the data is 0 (spec R115, R122, R125). -/
def Obligations.BoundedResultsAreInRange : Prop :=
  (∀ (bound : I32) (s t : State) (d : Word), 0 < bound.toInt → exec (.randint bound) s = .next t →
    t.responses = s.responses ++ [⟨.ok, d⟩] → d.toNat < bound.toNat) ∧
  (∀ (min max : I32) (s t : State) (d : Word), exec (.randrange min max) s = .next t →
    t.responses = s.responses ++ [⟨.ok, d⟩] →
    d.toNat < 2 ^ 32 ∧ min.toInt ≤ (d.setWidth 32).toInt ∧ (d.setWidth 32).toInt < max.toInt)

/-- A bounded-integer command is left in execution exactly when none of its draws, however many, would ever be accepted.
It has then given no response (spec R120). How the loop is cut into steps is the model's choice (assumption 6). -/
def Obligations.LoopIsLeftRunningOnlyIfItNeverAccepts : Prop :=
  (∀ (bound : I32) (s : State), s.seeded = true → 0 < bound.toInt →
    ((∃ t, exec (.randint bound) s = .next t ∧ t.phase = .drawing ⟨bound, 0#32⟩ ∧ t.responses = s.responses) ↔
      NeverAccepts bound.toNat s.gen)) ∧
  (∀ (min max : I32) (s : State), s.seeded = true →
    1 ≤ max.toInt - min.toInt → max.toInt - min.toInt ≤ 2 ^ 31 - 1 →
    ((∃ t, exec (.randrange min max) s = .next t ∧ t.phase = .drawing ⟨max - min, min⟩ ∧
        t.responses = s.responses) ↔
      NeverAccepts (max.toInt - min.toInt).toNat s.gen))

/-- An engine in a loop that never accepts takes no command and gives no response, whatever the host presents, until
reset is asserted, and each step leaves it in such a loop (spec R197). That the host goes on to its next action past a
word the engine does not take (`t.host = s.host.tail`) is the model's choice (assumption 2), and so is how many passes
of the loop a step runs (assumption 6). -/
def Obligations.HungEngineAnswersNothingUntilReset : Prop :=
  ∀ (s : State) (job : BoundedJob), s.phase = .drawing job → 0 < job.bound.toInt →
    NeverAccepts job.bound.toNat s.gen →
    (∀ rest, s.host ≠ .assertReset :: rest) → (∀ w rest, s.host ≠ .commandCutByReset w :: rest) →
    ∃ t, step s = .next t ∧ t.phase = .drawing job ∧ t.responses = s.responses ∧ t.seeded = s.seeded ∧
      t.host = s.host.tail ∧ NeverAccepts job.bound.toNat t.gen

/-! ## Real-valued results -/

/-- UNIFORM completes on a seeded engine, consumes one word and answers `CVT64(t >> 1) * 2^-63` (spec R136, R137). -/
def Obligations.UniformAnswersTheScaledWord : Prop :=
  ∀ s : State, s.seeded = true → exec .uniform s = .next { s with
    gen := (extractWord s.gen).2
    responses := s.responses ++ [⟨.ok, uniformBits (extractWord s.gen).1⟩] }

/-- The exact value of `u`: `CVT64(2^63 - 1)` is `2^63`, `CVT64(n)` is `n` rounded to 53 significant bits, ties to even,
`u` is `CVT64(n) * 2^-63` without a second rounding, zero exactly for `t` of 0 and 1, and non-decreasing (spec R137). -/
def Obligations.UniformIsExactScaling : Prop :=
  cvt64 (2 ^ 63 - 1) = 0x43E0000000000000#64 ∧
  (∀ n < 2 ^ 64, ∃ num den, 0 < den ∧ value64 (cvt64 n) = .finite false num den ∧
    num = roundQuotient n (2 ^ (n.log2 - 52)) * 2 ^ (n.log2 - 52) * den) ∧
  (∀ t : Word, ∃ a b c d, 0 < b ∧ 0 < d ∧ value64 (uniformBits t) = .finite false a b ∧
    value64 (cvt64 (sel63 t)) = .finite false c d ∧ a * 2 ^ 63 * d = c * b) ∧
  (∀ t : Word, uniformBits t = 0#64 ↔ t = 0#64 ∨ t = 1#64) ∧
  (∀ t t' : Word, t.toNat ≤ t'.toNat → (uniformBits t).toNat ≤ (uniformBits t').toNat)

/-- The range of `u` is closed at 1: it is exactly 1.0 for the words from `0xFFFFFFFFFFFFFC00` on, and at most the double
below 1.0 for every other word (spec R138). -/
def Obligations.UniformReachesOneExactlyAtTheTop : Prop :=
  ∀ t : Word,
    (0xFFFFFFFFFFFFFC00#64 ≤ t → uniformBits t = 0x3FF0000000000000#64) ∧
    (t < 0xFFFFFFFFFFFFFC00#64 → uniformBits t ≤ 0x3FEFFFFFFFFFFFFF#64) ∧
    uniformBits 0xFFFFFFFFFFFFFBFF#64 = 0x3FEFFFFFFFFFFFFF#64

/-- RANDDOUBLE with a bound that passes its check completes on a seeded engine, consumes one word and answers the rounded
product of `u` and the bound. Where the product is a NaN the answer is some NaN (spec R139, R142). -/
def Obligations.RanddoubleAnswersTheRoundedProduct : Prop :=
  ∀ (bound : F64) (s : State), s.seeded = true → ¬ ArgumentCheckFails (.randdouble bound) →
    ∃ (data : Word) (product : FloatValue),
      product = mulValue (value64 (uniformBits (extractWord s.gen).1)) (value64 bound) ∧
      exec (.randdouble bound) s = .next { s with
        gen := (extractWord s.gen).2
        responses := s.responses ++ [⟨.ok, data⟩] } ∧
      (product ≠ .nan → ∀ free, data = round64 free product) ∧
      (product = .nan → value64 data = .nan)

/-- RANDFLOAT with a bound that passes its check completes on a seeded engine, consumes one word, narrows `u` first and
answers the rounded binary32 product, upper half 0. Where the product is a NaN the answer is some NaN (spec R140,
R142). -/
def Obligations.RandfloatNarrowsThenMultiplies : Prop :=
  ∀ (bound : F32) (s : State), s.seeded = true → ¬ ArgumentCheckFails (.randfloat bound) →
    ∃ (result : F32) (product : FloatValue),
      (∀ free, product =
        mulValue (value32 (round32 free (value64 (uniformBits (extractWord s.gen).1)))) (value32 bound)) ∧
      exec (.randfloat bound) s = .next { s with
        gen := (extractWord s.gen).2
        responses := s.responses ++ [⟨.ok, result.setWidth 64⟩] } ∧
      (product ≠ .nan → ∀ free, result = round32 free product) ∧
      (product = .nan → value32 result = .nan)

/-- RANDFLOAT and RANDDOUBLE fail, on a seeded engine, for `+0.0` and for every pattern from `-0.0` to `-infinity`: they
answer INVALID_ARGUMENT and draw nothing. For every other bound, NaNs included, they answer OK (spec R141). -/
def Obligations.RealBoundCheckIsTheIeeeComparison : Prop :=
  ∀ s : State, s.seeded = true →
    (∀ bound : F64, (bound = 0#64 ∨ (0x8000000000000000#64 ≤ bound ∧ bound ≤ 0xFFF0000000000000#64) →
        exec (.randdouble bound) s = .next { s with responses := s.responses ++ [⟨.invalidArgument, 0#64⟩] }) ∧
      (¬ (bound = 0#64 ∨ (0x8000000000000000#64 ≤ bound ∧ bound ≤ 0xFFF0000000000000#64)) →
        ∃ t d, exec (.randdouble bound) s = .next t ∧ t.responses = s.responses ++ [⟨.ok, d⟩])) ∧
    (∀ bound : F32, (bound = 0#32 ∨ (0x80000000#32 ≤ bound ∧ bound ≤ 0xFF800000#32) →
        exec (.randfloat bound) s = .next { s with responses := s.responses ++ [⟨.invalidArgument, 0#64⟩] }) ∧
      (¬ (bound = 0#32 ∨ (0x80000000#32 ≤ bound ∧ bound ≤ 0xFF800000#32)) →
        ∃ t d, exec (.randfloat bound) s = .next t ∧ t.responses = s.responses ++ [⟨.ok, d⟩]))

/-- Special operands of the real products, for every choice of the free NaN and in both formats: a finite positive bound
gives a non-negative result of at most the bound, and the bound itself where `u`, in binary32 `NARROW(u)`, is 1.0.
`+infinity` gives `+infinity` for `u > 0` and a NaN for `u = 0`, and a NaN bound gives a NaN. `NARROW(u)` is 1.0 from
`1 - 2^-25` on, and is 0 only for `u = 0` (spec R142). -/
def Obligations.RealProductsStayWithinTheBound : Prop :=
  (∀ (free t : Word) (bound : F64),
    (0#64 < bound → bound < 0x7FF0000000000000#64 → mul64 free (uniformBits t) bound ≤ bound ∧
      (uniformBits t = 0x3FF0000000000000#64 → mul64 free (uniformBits t) bound = bound)) ∧
    (bound = 0x7FF0000000000000#64 →
      (uniformBits t ≠ 0#64 → mul64 free (uniformBits t) bound = 0x7FF0000000000000#64) ∧
      (uniformBits t = 0#64 → value64 (mul64 free (uniformBits t) bound) = .nan)) ∧
    (value64 bound = .nan → value64 (mul64 free (uniformBits t) bound) = .nan)) ∧
  (∀ (free : BitVec 32) (t : Word) (bound : F32),
    (0#32 < bound → bound < 0x7F800000#32 → mul32 free (narrow free (uniformBits t)) bound ≤ bound ∧
      (narrow free (uniformBits t) = 0x3F800000#32 → mul32 free (narrow free (uniformBits t)) bound = bound)) ∧
    (bound = 0x7F800000#32 →
      (uniformBits t ≠ 0#64 → mul32 free (narrow free (uniformBits t)) bound = 0x7F800000#32) ∧
      (uniformBits t = 0#64 → value32 (mul32 free (narrow free (uniformBits t)) bound) = .nan)) ∧
    (0x3FEFFFFFF0000000#64 ≤ uniformBits t → narrow free (uniformBits t) = 0x3F800000#32) ∧
    (narrow free (uniformBits t) = 0#32 ↔ uniformBits t = 0#64) ∧
    (value32 bound = .nan → value32 (mul32 free (narrow free (uniformBits t)) bound) = .nan))

/-- Rounding is to nearest, ties to even, in both formats: no finite value of the format is closer than the rounded one,
the rounded one is even where another is as close, and the result is the infinity exactly from half a unit above the
largest finite value on (spec R135). -/
def Obligations.RoundingIsToNearestTiesToEven : Prop :=
  ∀ f ∈ [binary64, binary32], ∀ num den : Nat, 0 < den →
    (f.roundMagnitude num den < f.infinityBits → ∀ b < f.infinityBits,
      |(f.units (f.roundMagnitude num den) * den : Int) - num * 2 ^ f.scale| ≤
        |(f.units b * den : Int) - num * 2 ^ f.scale| ∧
      (|(f.units (f.roundMagnitude num den) * den : Int) - num * 2 ^ f.scale| =
          |(f.units b * den : Int) - num * 2 ^ f.scale| →
        f.units b ≠ f.units (f.roundMagnitude num den) → f.roundMagnitude num den % 2 = 0)) ∧
    (f.roundMagnitude num den = f.infinityBits ↔
      (2 ^ (f.fracBits + 2) - 1) * 2 ^ (f.expMax - 3) * den ≤ num * 2 ^ f.scale)

/-! ## All commands -/

/-- Every step and every command answers a next state: the machine has no fault and refuses nothing (spec R66, R165,
R168). -/
def Obligations.EveryStepAnswersANextState : Prop :=
  (∀ s : State, s.StepsOn) ∧ ∀ (i : Instr) (s : State), ∃ t, exec i s = .next t

/-- A legal command other than SEED on an unseeded engine is answered UNSEEDED and touches nothing else (spec R169). -/
def Obligations.UnseededEngineAnswersUnseeded : Prop :=
  ∀ (i : Instr) (s : State), i.WellFormed → i.mnemonic ≠ .seed → s.seeded = false →
    exec i s = .next { s with responses := s.responses ++ [⟨.unseeded, 0#64⟩] }

/-- The frame of all commands and of the steps in which nothing happens. A command: what the host has still to do is untouched, earlier responses stand and at most one is
added, only SEED writes `SEEDED`, only bounded-integer commands leave another phase, the reading commands leave `MT` and
`IDX`, and below cursor 312 the one-draw commands leave `MT` and move `IDX` by at most one. A step of an engine that is
idle or in reset with nothing at its port, and a release of a reset that is not asserted, leave `SEEDED`, `MT`, `IDX`, the
phase and the responses (spec R21, R25, R26). That the host's list then moves on is the model's choice (assumption 2). -/
def Obligations.CommandsLeaveTheRestUnchanged : Prop :=
  (∀ (i : Instr) (s t : State), exec i s = .next t →
    t.host = s.host ∧
    (t.responses = s.responses ∨ ∃ r, t.responses = s.responses ++ [r]) ∧
    (i.mnemonic ≠ .seed → t.seeded = s.seeded) ∧
    (i.mnemonic ≠ .randint → i.mnemonic ≠ .randrange → t.phase = s.phase) ∧
    (i.mnemonic = .getseed ∨ i.mnemonic = .rdcur ∨ i.mnemonic = .rdword → t.gen = s.gen) ∧
    (i.mnemonic = .extract ∨ i.mnemonic = .uniform ∨ i.mnemonic = .randfloat ∨ i.mnemonic = .randdouble →
      s.gen.idx.toNat < 312 → t.gen.mt = s.gen.mt ∧ (t.gen.idx = s.gen.idx ∨ t.gen.idx = s.gen.idx + 1#9))) ∧
  (∀ s : State, s.phase = .idle ∨ s.phase = .inReset → s.host = [] ∨ (∃ rest, s.host = .wait :: rest) →
    step s = .next { s with host := s.host.tail }) ∧
  (∀ (s : State) (rest : List HostAction), s.phase ≠ .inReset → s.host = .releaseReset :: rest →
    step s = .next { s with host := rest })

/-- SEED sets `SEEDED`, reset clears it, and no other step writes it: where a step changes it, an idle engine has taken a
SEED command or reset was asserted (spec R26). -/
def Obligations.OnlySeedAndResetWriteSeeded : Prop :=
  ∀ s t : State, step s = .next t →
    (s.AcceptsSeed → t.seeded = true) ∧ (s.ResetIsAsserted → t.seeded = false) ∧
    (t.seeded ≠ s.seeded → s.AcceptsSeed ∨ s.ResetIsAsserted)

/-- What a command does to `SEEDED`, `MT`, `IDX` and the phase, and what it answers, is a function of those and of the
command alone: neither what the host will do nor any earlier response enters into it (spec R31). -/
def Obligations.CommandsDependOnTheArchitecturalStateAlone : Prop :=
  ∀ (i : Instr) (s s' : State), s.seeded = s'.seeded → s.gen = s'.gen → s.phase = s'.phase →
    ∃ (b : Bool) (g : GeneratorState) (p : Phase) (new : List Response),
      exec i s = .next ⟨b, g, p, s.host, s.responses ++ new⟩ ∧
      exec i s' = .next ⟨b, g, p, s'.host, s'.responses ++ new⟩

/-! ## Invariants -/

/-- The state after reset is legal and stands on no stream yet. -/
def Obligations.ResetStateIsLegal : Prop :=
  State.reset.Legal ∧ State.reset.OnStream ∧ State.reset.seeded = false

/-- Every step keeps a legal state legal: `IDX` stays in 0..312, an engine in reset stays unseeded, and only a seeded
engine with a positive bound is in a rejection loop (spec R25, R181). -/
def Obligations.StepKeepsLegalStates : Prop :=
  ∀ s t : State, s.Legal → step s = .next t → t.Legal

/-- Every step keeps a seeded engine on the output stream of a seed: its `MT` and `IDX` are always those after some
number of extractions from some seed, whatever commands ran (spec R106, R201). -/
def Obligations.StepKeepsTheEngineOnAStream : Prop :=
  ∀ s t : State, s.OnStream → step s = .next t → t.OnStream

/-- The contents of `MT` and `IDX` in an unseeded engine are never observed: two legal states that differ in nothing else
step to states that differ in nothing else, so they give the same responses for ever (spec R32). -/
def Obligations.UnseededContentsAreNeverObserved : Prop :=
  ∀ s s' t : State, s.Legal → s.AgreesWhereDefined s' → step s = .next t →
    ∃ t', step s' = .next t' ∧ t.AgreesWhereDefined t'
end

