-- ==== Sys2Proof/Laws/Array.lean ====
section
/-! SUPPORT. The laws of `MT` as memory, and what a twist step reads and writes. -/

namespace Sys2Proof.Machine

variable (mt : StateArray) (i j : Nat) (v : Word)

theorem readWord_eq_getElem (h : i < Config.N) : readWord mt i = mt[i] := by
  simp [readWord, Nat.mod_eq_of_lt h]

@[simp] theorem readWord_mod : readWord mt (i % Config.N) = readWord mt i := by
  simp [readWord]

/-- A read after a write to the same index gives the value written. -/
@[simp] theorem readWord_writeWord_same : readWord (writeWord mt i v) i = v := by
  simp [readWord, writeWord]

/-- A write leaves every other word alone. -/
theorem readWord_writeWord_of_ne (h : i % Config.N ≠ j % Config.N) :
    readWord (writeWord mt i v) j = readWord mt j := by
  simp [readWord, writeWord, h]

theorem readWord_writeWord :
    readWord (writeWord mt i v) j = if i % Config.N = j % Config.N then v else readWord mt j := by
  by_cases h : i % Config.N = j % Config.N
  · simp [readWord, writeWord, h]
  · simp [readWord_writeWord_of_ne _ _ _ _ h, h]

/-- Writing back the word an index holds changes nothing. -/
@[simp] theorem writeWord_readWord : writeWord mt i (readWord mt i) = mt := by
  simp [writeWord, readWord]

/-- Two arrays that agree at every index are equal. -/
theorem array_ext {a b : StateArray} (h : ∀ i < Config.N, readWord a i = readWord b i) : a = b := by
  refine Vector.ext fun i hi => ?_
  rw [← readWord_eq_getElem _ _ hi, ← readWord_eq_getElem _ _ hi]
  exact h i hi

@[simp] theorem readWord_replicate (c : Word) : readWord (Vector.replicate Config.N c) i = c := by
  simp [readWord]

@[simp] theorem twistSteps_zero : twistSteps 0 mt = mt := rfl

theorem twistSteps_succ (n : Nat) : twistSteps (n + 1) mt = twistStep (twistSteps n mt) n := rfl

/-- A twist step writes one word and no other. -/
theorem twistStep_other (h : i % Config.N ≠ j % Config.N) : readWord (twistStep mt i) j = readWord mt j :=
  readWord_writeWord_of_ne _ _ _ _ h

theorem twistStep_same : readWord (twistStep mt i) i =
    readWord mt (i + Config.M) ^^^ twistMix (readWord mt i) (readWord mt (i + 1)) :=
  readWord_writeWord_same _ _ _

/-- The steps `0..n-1` of the twist leave the words from `n` on as they were (spec R92). -/
theorem twistSteps_later (n : Nat) (hn : n ≤ Config.N) (hj : n ≤ j) (hj' : j < Config.N) :
    readWord (twistSteps n mt) j = readWord mt j := by
  induction n with
  | zero => rfl
  | succ n ih =>
    rw [twistSteps_succ, twistStep_other, ih (by omega) (by omega)]
    rw [Nat.mod_eq_of_lt (by omega), Nat.mod_eq_of_lt hj']; omega

/-- A word written by step `i` keeps its value for the rest of the twist (spec R92). -/
theorem twistSteps_settled (n : Nat) (hn : n ≤ Config.N) (hi : i < n) :
    readWord (twistSteps n mt) i = readWord (twistSteps (i + 1) mt) i := by
  induction n with
  | zero => omega
  | succ n ih =>
    by_cases h : i = n
    · subst h; rfl
    · rw [twistSteps_succ, twistStep_other, ih (by omega) (by omega)]
      rw [Nat.mod_eq_of_lt (by omega), Nat.mod_eq_of_lt (by omega)]; omega

@[simp] theorem twist_mt (g : GeneratorState) : (twist g).mt = twistSteps Config.N g.mt := rfl
@[simp] theorem twist_idx (g : GeneratorState) : (twist g).idx = 0#9 := rfl

end Sys2Proof.Machine
end

