-- ==== Sys2Proof/Laws/Extraction.lean ====
section
/-! SUPPORT. What `EXTRACT_WORD()` can do, said once (spec R101). -/

namespace Sys2Proof.Machine

variable (g : GeneratorState)

theorem refill_of_lt (h : g.idx.toNat < Config.N) : refill g = g := by
  simp [refill, Nat.not_le.mpr h]

theorem refill_of_ge (h : Config.N ≤ g.idx.toNat) : refill g = twist g := by
  simp [refill, h]

/-- After the refill the cursor names a word of the array. -/
theorem refill_idx_lt : (refill g).idx.toNat < Config.N := by
  unfold refill; split
  · simp
  · omega

theorem extractWord_of_lt (h : g.idx.toNat < Config.N) :
    extractWord g = (temper (readWord g.mt g.idx.toNat), ⟨g.mt, g.idx + 1#9⟩) := by
  simp [extractWord, refill_of_lt g h]

theorem extractWord_of_ge (h : Config.N ≤ g.idx.toNat) :
    extractWord g = (temper (readWord (twistSteps Config.N g.mt) 0), ⟨twistSteps Config.N g.mt, 1#9⟩) := by
  simp [extractWord, refill_of_ge g h]

/-- The cursor moves by exactly one, without wrapping. -/
theorem extractWord_idx_toNat : (extractWord g).2.idx.toNat = (refill g).idx.toNat + 1 := by
  have h := refill_idx_lt g
  have : Config.N = 312 := rfl
  simp only [extractWord, BitVec.toNat_add, BitVec.toNat_ofNat]
  omega

/-- "After the procedure `1 <= IDX <= 312`" (spec R101). -/
theorem extractWord_idx_bounds :
    1 ≤ (extractWord g).2.idx.toNat ∧ (extractWord g).2.idx.toNat ≤ Config.N := by
  rw [extractWord_idx_toNat]; have := refill_idx_lt g; omega

@[simp] theorem afterExtractions_zero : afterExtractions 0 g = g := rfl

theorem afterExtractions_succ (k : Nat) : afterExtractions (k + 1) g = afterExtractions k (extractWord g).2 := rfl

/-- The extractions of two runs, one after the other. -/
theorem afterExtractions_add (j k : Nat) : afterExtractions (j + k) g = afterExtractions k (afterExtractions j g) := by
  induction j generalizing g with
  | zero => simp
  | succ j ih => rw [Nat.succ_add, afterExtractions_succ, ih, afterExtractions_succ]

theorem afterExtractions_succ' (k : Nat) :
    afterExtractions (k + 1) g = (extractWord (afterExtractions k g)).2 := by
  rw [afterExtractions_add g k 1]; rfl

theorem drawBits_add (j k : Nat) : drawBits g (j + k) = drawBits (afterExtractions j g) k := by
  simp [drawBits, afterExtractions_add]

end Sys2Proof.Machine
end

