-- ==== Sys2Proof/Laws/Bounded.lean ====
section
/-! SUPPORT. What some passes of the rejection loop can do (spec R117). -/

namespace Sys2Proof.Machine

variable (bound : I32) (g : GeneratorState)

/-- Every pass consumes exactly one word, accepted or not (spec R117). -/
@[simp] theorem boundedPass_gen : (boundedPass bound g).2 = (extractWord g).2 := rfl

theorem boundedPass_value : (boundedPass bound g).1 =
    if accept (sel31 (extractWord g).1) (mod32 (sel31 (extractWord g).1) bound) bound
    then some (mod32 (sel31 (extractWord g).1) bound) else none := rfl

/-- `n` passes end with the first accepted draw, or with `n` rejected ones. -/
theorem boundedPasses_cases (n : Nat) :
    (∃ d < n, (∀ k < d, (boundedPass bound (afterExtractions k g)).1 = none) ∧
      ∃ val, (boundedPass bound (afterExtractions d g)).1 = some val ∧
        boundedPasses bound n g = (some val, afterExtractions (d + 1) g)) ∨
    ((∀ k < n, (boundedPass bound (afterExtractions k g)).1 = none) ∧
      boundedPasses bound n g = (none, afterExtractions n g)) := by
  induction n generalizing g with
  | zero => exact .inr ⟨by simp, rfl⟩
  | succ n ih =>
    have hgen := boundedPass_gen bound g
    rcases hp : boundedPass bound g with ⟨_ | val, g'⟩
    · rw [hp] at hgen
      have hstep : boundedPasses bound (n + 1) g = boundedPasses bound n (extractWord g).2 := by
        simp only [boundedPasses, hp]; rw [← hgen]
      rcases ih (extractWord g).2 with ⟨d, hd, hrej, val, hval, heq⟩ | ⟨hrej, heq⟩
      · refine .inl ⟨d + 1, by omega, ?_, val, hval, by rw [hstep, heq]; rfl⟩
        intro k hk
        cases k with
        | zero => simp [hp]
        | succ k => exact hrej k (by omega)
      · refine .inr ⟨?_, by rw [hstep, heq]; rfl⟩
        intro k hk
        cases k with
        | zero => simp [hp]
        | succ k => exact hrej k (by omega)
    · rw [hp] at hgen
      refine .inl ⟨0, by omega, by simp, val, by simp [hp], ?_⟩
      simp only [boundedPasses, hp]; rw [show g' = (extractWord g).2 from hgen]; rfl

end Sys2Proof.Machine
end

