-- ==== Sys2Proof/Laws/State.lean ====
section
/-! SUPPORT. One lemma per field for each operation that updates the state, so that no proof unfolds an update. -/

namespace Sys2Proof.Machine

section
variable (s : State) (st : Status) (d : Word)

@[simp] theorem respond_seeded : (s.respond st d).seeded = s.seeded := rfl
@[simp] theorem respond_gen : (s.respond st d).gen = s.gen := rfl
@[simp] theorem respond_phase : (s.respond st d).phase = s.phase := rfl
@[simp] theorem respond_host : (s.respond st d).host = s.host := rfl
@[simp] theorem respond_responses : (s.respond st d).responses = s.responses ++ [⟨st, d⟩] := rfl

@[simp] theorem enterReset_seeded : s.enterReset.seeded = false := rfl
@[simp] theorem enterReset_gen : s.enterReset.gen = GeneratorState.atReset := rfl
@[simp] theorem enterReset_phase : s.enterReset.phase = .inReset := rfl
@[simp] theorem enterReset_host : s.enterReset.host = s.host := rfl
@[simp] theorem enterReset_responses : s.enterReset.responses = s.responses := rfl

@[simp] theorem leaveReset_seeded : s.leaveReset.seeded = s.seeded := by
  unfold State.leaveReset; split <;> rfl
@[simp] theorem leaveReset_gen : s.leaveReset.gen = s.gen := by
  unfold State.leaveReset; split <;> rfl
@[simp] theorem leaveReset_host : s.leaveReset.host = s.host := by
  unfold State.leaveReset; split <;> rfl
@[simp] theorem leaveReset_responses : s.leaveReset.responses = s.responses := by
  unfold State.leaveReset; split <;> rfl

theorem leaveReset_phase_of_inReset (h : s.phase = .inReset) : s.leaveReset.phase = .idle := by
  simp [State.leaveReset, h]

theorem leaveReset_of_not_inReset (h : s.phase ≠ .inReset) : s.leaveReset = s := by
  unfold State.leaveReset; split <;> simp_all
end

@[simp] theorem atReset_mt : GeneratorState.atReset.mt = Vector.replicate Config.N 0#64 := rfl
@[simp] theorem atReset_idx : GeneratorState.atReset.idx = 0#9 := rfl

@[simp] theorem reset_seeded : State.reset.seeded = false := rfl
@[simp] theorem reset_gen : State.reset.gen = GeneratorState.atReset := rfl
@[simp] theorem reset_phase : State.reset.phase = .idle := rfl
@[simp] theorem reset_host : State.reset.host = [] := rfl
@[simp] theorem reset_responses : State.reset.responses = [] := rfl

/-- A response can be read off a longer response list. -/
theorem append_one_inj {rs : List Response} {a b : Response} (h : rs ++ [a] = rs ++ [b]) : a = b := by
  simpa using h

end Sys2Proof.Machine
end

