-- ==== Sys2Proof/Laws/Commands.lean ====
section
/-! SUPPORT. What the shared endings of a command can do: each lemma says once what a next state looks like. -/

namespace Sys2Proof.Machine

variable {s t : State}

/-- Raising an error answers the next state in which one response was added. -/
theorem raise_eq (e : EngineError) (s : State) :
    raise e s = .next { s with responses := s.responses ++ [⟨e.status, 0#64⟩] } := rfl

/-- Finishing answers the next state in which one OK response was added. -/
theorem finish_eq (d : Word) (s : State) :
    finish d s = .next { s with responses := s.responses ++ [⟨.ok, d⟩] } := rfl

theorem whenSeeded_of_seeded (c : Host.Outcome State Fault Refusal) (h : s.seeded = true) : whenSeeded s c = c := by
  simp [whenSeeded, h]

theorem whenSeeded_of_unseeded (c : Host.Outcome State Fault Refusal) (h : s.seeded = false) :
    whenSeeded s c = raise .unseeded s := by
  simp [whenSeeded, h]

/-- A command behind the gate either ran on a seeded engine or was answered UNSEEDED. -/
theorem whenSeeded_next {c : Host.Outcome State Fault Refusal} (h : whenSeeded s c = .next t) :
    (s.seeded = true ∧ c = .next t) ∨
      (s.seeded = false ∧ t = { s with responses := s.responses ++ [⟨.unseeded, 0#64⟩] }) := by
  cases hs : s.seeded with
  | true => rw [whenSeeded_of_seeded c hs] at h; exact .inl ⟨rfl, h⟩
  | false =>
    rw [whenSeeded_of_unseeded c hs, raise_eq] at h
    cases h; exact .inr ⟨rfl, by simp [EngineError.status, hs]⟩

/-- A settled bounded-integer command has answered OK and is idle, or it has not answered and is in its loop. -/
theorem settleJob_next {job : BoundedJob} {result : Option I32 × GeneratorState} (h : settleJob job result s = .next t) :
    (∃ val, result.1 = some val ∧ t = { s with
      gen := result.2
      phase := .idle
      responses := s.responses ++ [⟨.ok, pack32 (add32 val job.offset)⟩] }) ∨
    (result.1 = none ∧ t = { s with gen := result.2, phase := .drawing job }) := by
  obtain ⟨r, g⟩ := result
  cases r with
  | some val => simp only [settleJob, finish_eq] at h; cases h; exact .inl ⟨val, rfl, rfl⟩
  | none => simp only [settleJob] at h; cases h; exact .inr ⟨rfl, rfl⟩

/-- A settled bounded-integer command answers a next state. -/
theorem settleJob_steps (job : BoundedJob) (result : Option I32 × GeneratorState) (s : State) :
    ∃ t, settleJob job result s = .next t := by
  obtain ⟨r, g⟩ := result
  cases r <;> exact ⟨_, rfl⟩

@[simp] theorem stepsTo_zero : s.StepsTo 0 t ↔ s = t := Iff.rfl

theorem stepsTo_succ (n : Nat) : s.StepsTo (n + 1) t ↔ ∃ u, step s = .next u ∧ u.StepsTo n t := Iff.rfl

/-- Releasing a reset that is not asserted changes nothing. -/
theorem act_releaseReset (h : s.phase ≠ .inReset) : act .releaseReset s = .next s :=
  congrArg Host.Outcome.next (leaveReset_of_not_inReset s h)

end Sys2Proof.Machine
end

