-- ==== Sys2Proof/Laws/Draws.lean ====
section
/-! SUPPORT. The rejection loop in exact numbers: what one draw yields and when it is accepted (spec R117, R118), and why
`Config.passesPerStep` draws decide whether any draw is ever accepted (assumption 6). -/

namespace Sys2Proof.Machine

/-- `SEL31(t)` is the number `t[63:33]` (spec R105). -/
theorem sel31_toNat (t : Word) : (sel31 t).toNat = t.toNat / 2 ^ 33 := by
  have : t.toNat < 2 ^ 64 := t.isLt
  simp only [sel31, Config.intBits, BitVec.toNat_setWidth, BitVec.toNat_ushiftRight, Nat.shiftRight_eq_div_pow]
  omega

theorem mod32_toNat (a b : I32) : (mod32 a b).toNat = a.toNat % b.toNat := by
  simp only [mod32, BitVec.toNat_ofNat]
  exact Nat.mod_eq_of_lt (lt_of_le_of_lt (Nat.mod_le _ _) (BitVec.isLt _))

theorem toInt_of_pos {b : I32} (h : 0 < b.toInt) : b.toInt = b.toNat := by
  rw [BitVec.toInt_eq_toNat_cond] at *; split at * <;> omega

/-- The draw of a tempered word is accepted exactly by the condition on exact integers (spec R118). -/
theorem accept_draw_iff (t : Word) (bound : I32) (hb : 0 < bound.toInt) :
    accept (sel31 t) (mod32 (sel31 t) bound) bound = true ↔ Accepts bound.toNat (sel31 t).toNat := by
  have ht : t.toNat < 2 ^ 64 := t.isLt
  have hs := sel31_toNat t
  have hbound := toInt_of_pos hb
  have hval := mod32_toNat (sel31 t) bound
  have hle : (sel31 t).toNat % bound.toNat ≤ (sel31 t).toNat := Nat.mod_le _ _
  generalize mod32 (sel31 t) bound = v at *
  generalize sel31 t = b at *
  have hbits : b.toInt = b.toNat := by rw [BitVec.toInt_eq_toNat_cond]; split <;> omega
  have hv : v.toInt = v.toNat := by rw [BitVec.toInt_eq_toNat_cond]; split <;> omega
  have h1 := BitVec.toInt_lt (x := bound)
  have hsum : accept b v bound = true ↔ 0 ≤ (comparatorSum b v bound).toInt := by
    rw [accept, BitVec.msb_eq_toInt]; simp
  rw [hsum]
  simp only [comparatorSum, add32, sub32, BitVec.toInt_add, BitVec.toInt_sub, show (1#32).toInt = 1 from rfl, Int.bmod]
  unfold Accepts
  omega

variable (bound : I32) (g : GeneratorState)

/-- A pass rejects its draw exactly when the exact sum does not fit (spec R117, R118). -/
theorem boundedPass_rejects (hb : 0 < bound.toInt) (k : Nat) :
    (boundedPass bound (afterExtractions k g)).1 = none ↔ ¬ Accepts bound.toNat (drawBits g k) := by
  rw [boundedPass_value, drawBits, ← accept_draw_iff _ _ hb]
  split <;> simp_all

/-- An accepted pass yields `bits mod bound` (spec R117). -/
theorem boundedPass_accepts (hb : 0 < bound.toInt) (k : Nat) (h : Accepts bound.toNat (drawBits g k)) :
    (boundedPass bound (afterExtractions k g)).1 = some (BitVec.ofNat 32 (drawBits g k % bound.toNat)) := by
  rw [boundedPass_value, if_pos ((accept_draw_iff _ _ hb).mpr h)]
  rfl

/-- The state after at least one extraction as one of finitely many codes: 312 words and a cursor in 1..312. -/
def stateCode (k : Nat) : (Fin Config.N → Fin (2 ^ 64)) × Fin Config.N :=
  (fun i => (readWord (afterExtractions (k + 1) g).mt i).toFin,
   ⟨(afterExtractions (k + 1) g).idx.toNat - 1, by
      have := extractWord_idx_bounds (afterExtractions k g)
      rw [← afterExtractions_succ'] at this
      simp only [Config.N] at *; omega⟩)

theorem afterExtractions_eq_of_code {a b : Nat} (h : stateCode g a = stateCode g b) :
    afterExtractions (a + 1) g = afterExtractions (b + 1) g := by
  have hwords := congrArg Prod.fst h
  have hcursor := congrArg (fun c => (Prod.snd c).val) h
  have hmt : (afterExtractions (a + 1) g).mt = (afterExtractions (b + 1) g).mt := by
    refine array_ext fun i hi => ?_
    exact BitVec.toFin_inj.mp (congrFun hwords ⟨i, hi⟩)
  have hidx : (afterExtractions (a + 1) g).idx = (afterExtractions (b + 1) g).idx := by
    refine BitVec.eq_of_toNat_eq ?_
    have ha := (extractWord_idx_bounds (afterExtractions a g)).1
    have hb := (extractWord_idx_bounds (afterExtractions b g)).1
    rw [← afterExtractions_succ'] at ha hb
    simp only [stateCode] at hcursor
    omega
  generalize afterExtractions (a + 1) g = x at *
  generalize afterExtractions (b + 1) g = y at *
  cases x; cases y; simp_all

/-- A state that repeats decides the loop: if the draws up to its second visit are all rejected, all are. -/
theorem neverAccepts_of_repeat {bound : Nat} {i j : Nat} (hij : i < j)
    (hrep : afterExtractions i g = afterExtractions j g) (h : ∀ k < j, ¬ Accepts bound (drawBits g k)) :
    NeverAccepts bound g := by
  intro k
  induction k using Nat.strong_induction_on with
  | _ k ih =>
    by_cases hk : k < j
    · exact h k hk
    · have hback : drawBits g k = drawBits g (i + (k - j)) := by
        rw [drawBits_add, hrep, ← drawBits_add, show j + (k - j) = k by omega]
      rw [hback]
      exact ih _ (by omega)

theorem stateCodes_lt_passes : Config.N * (2 ^ 64) ^ Config.N + 1 ≤ Config.passesPerStep := by
  have hpos : 0 < (2 ^ 64) ^ Config.N := Nat.pow_pos (by decide)
  unfold Config.passesPerStep
  rw [Nat.add_mul, Nat.one_mul]
  exact Nat.add_le_add_left hpos _

/-- A loop that rejects `Config.passesPerStep` draws in a row has come back to a state it was in before, so it never
accepts one (assumption 6). -/
theorem neverAccepts_of_passesPerStep {bound : Nat}
    (h : ∀ k < Config.passesPerStep, ¬ Accepts bound (drawBits g k)) : NeverAccepts bound g := by
  have hcard : Fintype.card ((Fin Config.N → Fin (2 ^ 64)) × Fin Config.N) <
      Fintype.card (Fin (Config.N * (2 ^ 64) ^ Config.N + 1)) := by
    simp only [Fintype.card_prod, Fintype.card_fun, Fintype.card_fin]
    rw [Nat.mul_comm]
    exact Nat.lt_add_one _
  obtain ⟨a, b, hne, hcode⟩ := Fintype.exists_ne_map_eq_of_card_lt (fun k : Fin _ => stateCode g k.val) hcard
  have hrep := afterExtractions_eq_of_code g hcode
  have hlast : ∀ c : Fin (Config.N * (2 ^ 64) ^ Config.N + 1), c.val + 1 ≤ Config.passesPerStep :=
    fun c => le_trans (Nat.succ_le_of_lt c.isLt) stateCodes_lt_passes
  have hab : a.val ≠ b.val := fun e => hne (Fin.ext e)
  clear hcard hcode
  rcases Nat.lt_or_gt_of_ne hab with hlt | hlt
  · exact neverAccepts_of_repeat g (Nat.succ_lt_succ hlt) hrep
      fun k hk => h k (lt_of_lt_of_le hk (hlast b))
  · exact neverAccepts_of_repeat g (Nat.succ_lt_succ hlt) hrep.symm
      fun k hk => h k (lt_of_lt_of_le hk (hlast a))

end Sys2Proof.Machine
end

