-- ==== Sys2Proof/Laws/Words.lean ====
section
/-! SUPPORT. The fields of the words the ports carry: what stands in a concatenation, bit by bit and field by field
(spec R9, R61, R62, R64). -/

namespace Sys2Proof

theorem getLsbD_commandWord (op : Code) (arg : Word) (j : Nat) :
    (commandWord op arg).getLsbD j = if j < 64 then arg.getLsbD j else op.getLsbD (j - 64) :=
  BitVec.getLsbD_append

theorem opField_commandWord (op : Code) (arg : Word) : opField (commandWord op arg) = op := by
  refine BitVec.eq_of_getLsbD_eq fun j hj => ?_
  simp only [opField, BitVec.getLsbD_extractLsb', getLsbD_commandWord]
  simp [hj]

theorem argField_commandWord (op : Code) (arg : Word) : argField (commandWord op arg) = arg := by
  refine BitVec.eq_of_getLsbD_eq fun j hj => ?_
  simp only [argField, BitVec.getLsbD_extractLsb', getLsbD_commandWord]
  simp [hj]

theorem getLsbD_halves (high low : BitVec 32) (j : Nat) :
    (Instr.arg (.randrange low high)).getLsbD j = if j < 32 then low.getLsbD j else high.getLsbD (j - 32) :=
  BitVec.getLsbD_append

/-- A command word is its opcode and its operand field. -/
theorem commandWord_fields (c : CommandWord) : commandWord (opField c) (argField c) = c := by
  refine BitVec.eq_of_getLsbD_eq fun j hj => ?_
  rw [getLsbD_commandWord]
  simp only [opField, argField, BitVec.getLsbD_extractLsb']
  by_cases h : j < 64
  · simp [h]
  · have h8 : j - 64 < 8 := by omega
    have hj' : 64 + (j - 64) = j := by omega
    simp [h, h8, hj']

namespace Machine

theorem getLsbD_responseWord (r : Response) (j : Nat) :
    r.word.getLsbD j = if j < 64 then r.data.getLsbD j else r.status.code.getLsbD (j - 64) :=
  BitVec.getLsbD_append

end Machine

end Sys2Proof
end

