-- ==== Sys2Proof/Laws/PerInstr.lean ====
section
/-! SUPPORT. Facts about every command as syntax, one lemma per constructor of `Instr`. -/

namespace Sys2Proof.Laws.OpcodePlacement

/-- The opcode stands in bits 71..64 of the encoded word and the operand field in bits 63..0 (spec R61). -/
def Statement (i : Instr) : Prop :=
  opField (encode i) = i.mnemonic.opcode ∧ argField (encode i) = i.arg

theorem seed (value : Word) : Statement (.seed value) := ⟨opField_commandWord _ _, argField_commandWord _ _⟩
theorem getseed : Statement .getseed := ⟨opField_commandWord _ _, argField_commandWord _ _⟩
theorem extract : Statement .extract := ⟨opField_commandWord _ _, argField_commandWord _ _⟩
theorem randint (bound : I32) : Statement (.randint bound) := ⟨opField_commandWord _ _, argField_commandWord _ _⟩
theorem randrange (min max : I32) : Statement (.randrange min max) :=
  ⟨opField_commandWord _ _, argField_commandWord _ _⟩
theorem uniform : Statement .uniform := ⟨opField_commandWord _ _, argField_commandWord _ _⟩
theorem randfloat (bound : F32) : Statement (.randfloat bound) := ⟨opField_commandWord _ _, argField_commandWord _ _⟩
theorem randdouble (bound : F64) : Statement (.randdouble bound) := ⟨opField_commandWord _ _, argField_commandWord _ _⟩
theorem rdcur : Statement .rdcur := ⟨opField_commandWord _ _, argField_commandWord _ _⟩
theorem rdword (index : BitVec 9) : Statement (.rdword index) := ⟨opField_commandWord _ _, argField_commandWord _ _⟩

end Sys2Proof.Laws.OpcodePlacement
end

