-- ==== Sys2Proof/Machine/ScriptText.lean ====
section
/-! DEFINITION. The text of command scripts (spec R69): reading a line `MNEMONIC [operand {, operand}] [-> STATUS
[data]] [; comment]`, pseudo-commands included (spec R70), and writing a word as hexadecimal digits. Blanks around the
parts of a line carry no meaning. Assumption 9. -/

namespace Sys2Proof.Machine

/-! ## Cutting text -/

/-- The text without blanks at its ends. -/
def trim (cs : List Char) : List Char :=
  ((cs.dropWhile fun c => c = ' ').reverse.dropWhile fun c => c = ' ').reverse

/-- The parts of a text between separators: one part more than there are separators. `seps` lists the characters that
separate. -/
def splitOn (seps : List Char) : List Char → List (List Char)
  | [] => [[]]
  | c :: cs =>
    match splitOn seps cs with
    | [] => [[c]]
    | part :: parts => if c ∈ seps then [] :: part :: parts else (c :: part) :: parts

/-- The text before the first `->` and what follows it, if it occurs. -/
def splitArrow : List Char → List Char × Option (List Char)
  | [] => ([], none)
  | '-' :: '>' :: cs => ([], some cs)
  | c :: cs => (c :: (splitArrow cs).1, (splitArrow cs).2)

/-- The text before the first blank and the text after it. -/
def splitBlank (cs : List Char) : List Char × List Char :=
  (cs.takeWhile fun c => c ≠ ' ', trim (cs.dropWhile fun c => c ≠ ' '))

/-! ## Numbers -/

/-- The value of a hexadecimal digit. -/
def hexDigit (c : Char) : Option Nat :=
  if '0' ≤ c ∧ c ≤ '9' then some (c.toNat - '0'.toNat)
  else if 'a' ≤ c ∧ c ≤ 'f' then some (c.toNat - 'a'.toNat + 10)
  else if 'A' ≤ c ∧ c ≤ 'F' then some (c.toNat - 'A'.toNat + 10)
  else none

/-- The value of a digit of the given base. -/
def digitOf (base : Nat) (c : Char) : Option Nat := (hexDigit c).filter fun d => d < base

/-- The number spelled by digits after a leading value. -/
def digitsFrom (base : Nat) : Nat → List Char → Option Nat
  | acc, [] => some acc
  | acc, c :: cs =>
    match digitOf base c with
    | some d => digitsFrom base (acc * base + d) cs
    | none => none

/-- The number spelled by at least one digit. -/
def digits (base : Nat) (cs : List Char) : Option Nat := if cs = [] then none else digitsFrom base 0 cs

/-- A sign and the rest. -/
def signOf : List Char → Bool × List Char
  | '-' :: cs => (true, cs)
  | '+' :: cs => (false, cs)
  | cs => (false, cs)

/-- A signed decimal exponent. -/
def exponentOf (cs : List Char) : Option Int :=
  (digits 10 (signOf cs).2).map fun n => if (signOf cs).1 then -(n : Int) else n

/-- The operand of SEED: unsigned decimal, or `0x` and up to 16 hexadecimal digits (spec R69). -/
def seedOf : List Char → Option Int
  | '0' :: 'x' :: cs => if cs.length ≤ 16 then (digits 16 cs).map Int.ofNat else none
  | cs => (digits 10 cs).map Int.ofNat

/-- An `i32` operand of RANDINT and RANDRANGE: decimal, with a minus sign where it is negative (spec R69). -/
def i32Of : List Char → Option Int
  | '-' :: cs => (digits 10 cs).map fun n => -(n : Int)
  | cs => (digits 10 cs).map Int.ofNat

/-- The index of RDWORD: unsigned decimal (spec R69). -/
def indexOf (cs : List Char) : Option Int := (digits 10 cs).map Int.ofNat

/-- `mantissa * base^exponent` as a floating-point operand. -/
def scaled (neg : Bool) (base : Nat) (mantissa : Nat) (exponent : Int) : Operand :=
  if 0 ≤ exponent then .real neg (mantissa * base ^ exponent.toNat) 1
  else .real neg mantissa (base ^ (-exponent).toNat)

/-- A mantissa with an optional point: its digits as one number, and how many stand after the point. -/
def mantissaOf (base : Nat) (cs : List Char) : Option (Nat × Nat) :=
  match splitOn ['.'] cs with
  | [whole] => (digits base whole).map fun n => (n, 0)
  | [whole, part] => (digits base (whole ++ part)).map fun n => (n, part.length)
  | _ => none

/-- The rest of a literal after the `0x` or `0X` of C hexadecimal notation, none for another literal (spec R69). -/
def hexRest : List Char → Option (List Char)
  | '0' :: 'x' :: cs => some cs
  | '0' :: 'X' :: cs => some cs
  | _ => none

/-- What follows `0x` in a C hexadecimal literal: a mantissa and, after `p` or `P`, a binary exponent, which C requires
(spec R69). -/
def hexRealOf (neg : Bool) (cs : List Char) : Option Operand :=
  match splitOn ['p', 'P'] cs with
  | [mantissa, exponent] =>
    match mantissaOf 16 mantissa, exponentOf exponent with
    | some (n, places), some e => some (scaled neg 2 n (e - 4 * places))
    | _, _ => none
  | _ => none

/-- A decimal literal: a mantissa and, after `e` or `E`, an exponent that may be left out (spec R69). -/
def decimalRealOf (neg : Bool) (cs : List Char) : Option Operand :=
  match splitOn ['e', 'E'] cs with
  | [mantissa] => (mantissaOf 10 mantissa).map fun m => scaled neg 10 m.1 (-(m.2 : Int))
  | [mantissa, exponent] =>
    match mantissaOf 10 mantissa, exponentOf exponent with
    | some (n, places), some e => some (scaled neg 10 n (e - places))
    | _, _ => none
  | _ => none

/-- An unsigned floating-point literal: C hexadecimal or decimal (spec R69). -/
def unsignedRealOf (neg : Bool) (cs : List Char) : Option Operand :=
  match hexRest cs with
  | some rest => hexRealOf neg rest
  | none => decimalRealOf neg cs

/-- A floating-point operand: `bits:0x` and the given number of hexadecimal digits, or a literal (spec R69). -/
def floatOf (width : Nat) : List Char → Option Operand
  | 'b' :: 'i' :: 't' :: 's' :: ':' :: '0' :: 'x' :: cs =>
    if cs.length = width then (digits 16 cs).map .bits else none
  | '-' :: cs => unsignedRealOf true cs
  | cs => unsignedRealOf false cs

/-! ## Lines -/

/-- The mnemonics, in the opcode map's order. -/
def mnemonics : List Mnemonic :=
  [.seed, .getseed, .extract, .randint, .randrange, .uniform, .randfloat, .randdouble, .rdcur, .rdword]

/-- One operand of a command, written as its mnemonic asks for (spec R69). -/
def operandOf (m : Mnemonic) (cs : List Char) : Option Operand :=
  match m with
  | .randfloat => floatOf 8 cs
  | .randdouble => floatOf 16 cs
  | .seed => (seedOf cs).map .int
  | .getseed => none
  | .extract => none
  | .randint => (i32Of cs).map .int
  | .randrange => (i32Of cs).map .int
  | .uniform => none
  | .rdcur => none
  | .rdword => (indexOf cs).map .int

/-- The operands of a line, separated by commas. -/
def operandsOf (m : Mnemonic) (cs : List Char) : Option (List Operand) :=
  if cs = [] then some [] else (splitOn [','] cs).mapM fun part => operandOf m (trim part)

/-- The command or pseudo-command of a line (spec R69, R70). -/
def requestOf (cs : List Char) : Option ScriptRequest :=
  let (name, operands) := splitBlank (trim cs)
  if name = "CONSTRUCT".toList then
    if operands = [] then some (.construct none)
    else ((seedOf operands).bind asU64).map fun seed => .construct (some seed)
  else if name = "RESET".toList then
    if operands = [] then some .reset else none
  else
    match mnemonics.find? fun m => (mnemonicName m).toList = name with
    | some m => (operandsOf m operands).map fun ops => .command m ops
    | none => none

/-- The status a line names (spec R65, R69). -/
def statusOf (cs : List Char) : Option Status :=
  if cs = "OK".toList then some .ok
  else if cs = "INVALID_ARGUMENT".toList then some .invalidArgument
  else if cs = "ILLEGAL_COMMAND".toList then some .illegalCommand
  else if cs = "UNSEEDED".toList then some .unseeded
  else none

/-- The 16 hexadecimal digits of expected data (spec R69). -/
def dataDigits (cs : List Char) : Option Word := if cs.length = 16 then (digits 16 cs).map (BitVec.ofNat 64) else none

/-- The data of an expected response: 16 hexadecimal digits, or nothing at all for 0 on a status that is not OK (spec
R69). DESIGN CHOICE, assumption 9: the digits may follow a `0x`, which R69's form does not have. A `0x` without them is
no data. -/
def dataOf (status : Status) : List Char → Option Word
  | [] => if status = .ok then none else some 0#64
  | '0' :: 'x' :: cs => dataDigits cs
  | cs => dataDigits cs

/-- The expected response after `->`. -/
def expectedOf (cs : List Char) : Option Response :=
  let (name, data) := splitBlank (trim cs)
  match statusOf name with
  | some status => (dataOf status data).map fun d => ⟨status, d⟩
  | none => none

/-- A script line from its characters (spec R69). -/
def lineOf (cs : List Char) : Option ScriptLine :=
  let (request, expected) := splitArrow (cs.takeWhile fun c => c ≠ ';')
  match requestOf request, expected with
  | some r, none => some ⟨r, none⟩
  | some r, some e => (expectedOf e).map fun response => ⟨r, some response⟩
  | none, _ => none

/-- The digit of a value below 16. -/
def hexChar (d : Nat) : Char := Char.ofNat (if d < 10 then '0'.toNat + d else 'A'.toNat + (d - 10))

/-- The low `n` hexadecimal digits of a number, most significant first. -/
def hexText : Nat → Nat → List Char
  | 0, _ => []
  | n + 1, v => hexText n (v / 16) ++ [hexChar (v % 16)]

/-- A command word as 18 hexadecimal digits (spec R69). -/
def wordText (c : CommandWord) : List Char := hexText 18 c.toNat

end Sys2Proof.Machine
end

