-- ==== Sys2Proof/Tests/Slice0.lean ====
section
/-! SUPPORT. Small tests on values the spec prints or that follow from its rules by hand, and for every statement with
hypotheses a witness that meets them. -/

-- one theorem at a time: many concurrent kernel checks exhaust the thread limit
set_option Elab.async false

namespace Sys2Proof.Tests

open Sys2Proof Sys2Proof.Machine

/-! ## Helpers -/

/-- The next state of an outcome, if it is one. -/
def nextOf : Host.Outcome State Fault Refusal → Option State
  | .next s => some s
  | .fault _ => none
  | .refused _ => none

/-- An idle seeded engine with the given array and cursor and the given host actions. -/
def engine (mt : StateArray) (idx : Cursor) (host : List HostAction) : State := ⟨true, ⟨mt, idx⟩, .idle, host, []⟩

/-- The array whose words are all `c`. -/
def flat (c : Word) : StateArray := Vector.replicate Config.N c

/-- A state word whose tempered word gives `bits = 1077937152`, above `2^30`. By spec R95 an array of this word alone is a
fixed point of the twist. -/
def highWord : Word := 0x0080000000000000#64

/-- The bound that rejects every draw above `2^30` (spec R121). -/
def worstBound : I32 := 0x40000001#32

/-- The responses a command gives on an engine, and its cursor afterwards. -/
def answers (i : Instr) (s : State) : Option (List Response × Cursor) :=
  (nextOf (exec i s)).map fun t => (t.responses, t.gen.idx)

theorem next_of_answers {i : Instr} {s : State} {rs : List Response} {c : Cursor} (h : answers i s = some (rs, c)) :
    ∃ t, exec i s = .next t ∧ t.responses = rs := by
  rw [answers] at h
  generalize exec i s = o at h
  cases o with
  | next t => simp only [nextOf, Option.map_some, Option.some.injEq, Prod.mk.injEq] at h; exact ⟨t, rfl, h.1⟩
  | fault r => cases r
  | refused r => simp [nextOf] at h

/-- The response of the first step of an idle unseeded engine to a command word. -/
def firstAnswer (w : CommandWord) : Option (List ResponseWord) :=
  (nextOf (step { State.reset with host := [.command w] })).map fun t => t.responses.map Response.word

/-! ## Well-formedness -/

theorem test_wellFormed_refuses_index_312 : Instr.wellFormed (.rdword 312#9) = false := by decide
theorem test_wellFormed_refuses_index_511 : Instr.wellFormed (.rdword 511#9) = false := by decide
theorem test_wellFormed_takes_index_311 : Instr.WellFormed (.rdword 311#9) := by decide

/-! ## Decoding: words written out from R61 to R63 and 95_test_vectors.md -/

theorem test_decode_seed : decode 0x010000000000001571#72 = .ok (.seed 0x1571#64) := by decide
theorem test_decode_getseed : decode 0x020000000000000000#72 = .ok .getseed := by decide
theorem test_decode_extract : decode 0x100000000000000000#72 = .ok .extract := by decide
theorem test_decode_randint : decode 0x200000000040000001#72 = .ok (.randint 0x40000001#32) := by decide
/-- `RANDRANGE -5, 5`: `min` is the low half, `max` the high half (spec R69). -/
theorem test_decode_randrange :
    decode 0x2100000005FFFFFFFB#72 = .ok (.randrange 0xFFFFFFFB#32 0x00000005#32) := by decide
theorem test_decode_uniform : decode 0x300000000000000000#72 = .ok .uniform := by decide
theorem test_decode_randfloat : decode 0x310000000040200000#72 = .ok (.randfloat 0x40200000#32) := by decide
theorem test_decode_randdouble :
    decode 0x324004000000000000#72 = .ok (.randdouble 0x4004000000000000#64) := by decide
theorem test_decode_rdcur : decode 0x400000000000000000#72 = .ok .rdcur := by decide
theorem test_decode_rdword : decode 0x410000000000000137#72 = .ok (.rdword 311#9) := by decide
theorem test_decode_refuses_index_312 :
    decode 0x410000000000000138#72 = .error (.indexOutOfRange 312#9) := by decide
theorem test_decode_refuses_reserved_bit_32 :
    decode 0x200000000100000008#72 = .error (.reservedBitSet 0x20#8) := by decide
theorem test_decode_refuses_reserved_bit_9 :
    decode 0x410000000000000200#72 = .error (.reservedBitSet 0x41#8) := by decide
theorem test_decode_refuses_zero : decode 0#72 = .error (.unknownOpcode 0#8) := by decide
theorem test_encode_randrange :
    encode (.randrange 0xFFFFFFFB#32 0x00000005#32) = 0x2100000005FFFFFFFB#72 := by decide
theorem test_table_word_rdword :
    decodeTableWord 72 0x410000000000000001 = some (.rdword 1#9) := by decide +kernel

/-! ## Operations: spec R95, R104, R105, R118, 95_test_vectors.md sections 2.2 to 2.5 -/

theorem test_twistMix_odd : twistMix 0#64 1#64 = 0xB5026F5AA96619E9#64 := by decide +kernel
theorem test_twistMix_masks :
    twistMix 0x7FFFFFFFFFFFFFFF#64 0xFFFFFFFF80000000#64 = 0#64 := by decide +kernel
theorem test_twistMix_all :
    twistMix 0xFFFFFFFFFFFFFFFF#64 0xFFFFFFFFFFFFFFFF#64 = 0xF5026F5A9699E616#64 := by decide +kernel
theorem test_temper_first_word :
    temper 0x245B1C66F2BDC210#64 = 0xC96D191CF6F6AEA6#64 := by decide +kernel
theorem test_temper_ones : temper 0xFFFFFFFFFFFFFFFF#64 = 0x7BFEEEEFEFA1D577#64 := by decide +kernel
theorem test_sel31 : sel31 0xC96D191CF6F6AEA6#64 = 1689685134#32 := by decide +kernel
theorem test_accept_power_of_two : accept 2147483647#32 1073741823#32 1073741824#32 = true := by decide
theorem test_accept_rejects_bound_seven : accept 2147483646#32 0#32 7#32 = false := by decide
theorem test_cvt64_tie_to_even : cvt64 (2 ^ 53 + 3) = 0x4340000000000002#64 := by decide +kernel
theorem test_uniform_below_one :
    uniformOf 0#64 0xFFFFFFFFFFFFFBFF#64 = 0x3FEFFFFFFFFFFFFF#64 := by decide +kernel
theorem test_uniform_one : uniformOf 0#64 0xFFFFFFFFFFFFFC00#64 = 0x3FF0000000000000#64 := by decide +kernel
theorem test_narrow_tie : narrow 0#32 0x3FEFFFFFF0000000#64 = 0x3F800000#32 := by decide +kernel
theorem test_mul64_subnormal : mul64 0#64 0x3FE92DA3239EDED6#64 1#64 = 1#64 := by decide +kernel
theorem test_mul64_largest :
    mul64 0#64 0x3FE92DA3239EDED6#64 0x7FEFFFFFFFFFFFFF#64 = 0x7FE92DA3239EDED5#64 := by decide +kernel
theorem test_mul32 : mul32 0#32 0x3F496D19#32 0x40200000#32 = 0x3FFBC85F#32 := by decide +kernel

/-! ## Commands: 95_test_vectors.md sections 2 and 3 -/

/-- The first word of seed 5489 (spec R100). -/
theorem test_first_extraction :
    (extractWord (initializeFrom 5489#64)).1 = 0xC96D191CF6F6AEA6#64 := by decide +kernel
theorem test_seed_words :
    readWord (seedArray 5489#64) 1 = 0xB5347F47116BD3DE#64 ∧
    readWord (seedArray 5489#64) 311 = 0xC65AE95C45A5D796#64 := by decide +kernel
theorem test_seed_answers : answers (.seed 0#64) State.reset = some ([⟨.ok, 0#64⟩], 312#9) := by decide +kernel
theorem test_getseed : answers .getseed (engine (flat 7#64) 312#9 []) = some ([⟨.ok, 7#64⟩], 312#9) := by decide +kernel
theorem test_rdcur : answers .rdcur (engine (flat 7#64) 312#9 []) = some ([⟨.ok, 0x138#64⟩], 312#9) := by
  decide +kernel
theorem test_rdword_illegal :
    answers (.rdword 312#9) State.reset = some ([⟨.illegalCommand, 0#64⟩], 0#9) := by decide +kernel
/-- The last word of a batch is read without a twist (spec R107). -/
theorem test_extract_last_word :
    answers .extract (engine (flat 1#64) 311#9 []) = some ([⟨.ok, 0x0040002000020801#64⟩], 312#9) := by decide +kernel
/-- `RANDINT 1073741825` rejects the first draw and answers the second (spec R121). -/
theorem test_randint_redraws :
    answers (.randint worstBound) (engine ((flat 0#64).set 0 highWord) 0#9 []) = some ([⟨.ok, 0#64⟩], 2#9) := by
  decide +kernel
/-- `RANDRANGE -5, 5` on the first word of seed 5489 is -1, zero-extended (spec R122). -/
theorem test_randrange_negative :
    answers (.randrange 0xFFFFFFFB#32 5#32) (engine (flat 0x245B1C66F2BDC210#64) 0#9 []) =
      some ([⟨.ok, 0x00000000FFFFFFFF#64⟩], 1#9) := by decide +kernel
/-- The widest range that does not fit (spec R124). -/
theorem test_randrange_overflow :
    answers (.randrange 0x80000000#32 0x7FFFFFFF#32) (engine (flat 0#64) 312#9 []) =
      some ([⟨.invalidArgument, 0#64⟩], 312#9) := by decide +kernel
theorem test_uniform :
    answers .uniform (engine (flat 0x245B1C66F2BDC210#64) 0#9 []) =
      some ([⟨.ok, 0x3FE92DA3239EDED6#64⟩], 1#9) := by decide +kernel
theorem test_randdouble :
    answers (.randdouble 0x4004000000000000#64) (engine (flat 0x245B1C66F2BDC210#64) 0#9 []) =
      some ([⟨.ok, 0x3FFF790BEC86968C#64⟩], 1#9) := by decide +kernel
theorem test_randfloat :
    answers (.randfloat 0x40200000#32) (engine (flat 0x245B1C66F2BDC210#64) 0#9 []) =
      some ([⟨.ok, 0x000000003FFBC85F#64⟩], 1#9) := by decide +kernel
/-- `-0.0` fails the bound check (spec R141). -/
theorem test_randfloat_negative_zero :
    answers (.randfloat 0x80000000#32) (engine (flat 0#64) 312#9 []) =
      some ([⟨.invalidArgument, 0#64⟩], 312#9) := by decide +kernel

/-! ## The ports: 95_test_vectors.md Program F -/

theorem test_extract_unseeded : firstAnswer 0x100000000000000000#72 = some [0x030000000000000000#72] := by
  decide +kernel
theorem test_randint_zero_unseeded : firstAnswer 0x200000000000000000#72 = some [0x030000000000000000#72] := by
  decide +kernel
theorem test_illegal_unseeded : firstAnswer 0x990000000000000000#72 = some [0x020000000000000000#72] := by
  decide +kernel
theorem test_fetch_runs_seed :
    (nextOf (step (State.reset.withFetchWord 72 0x010000000000001571))).map
      (fun t => (t.seeded, t.gen.idx, t.responses.map Response.word)) =
      some (true, 312#9, [0x000000000000000000#72]) := by decide +kernel
theorem test_script_randrange :
    (ScriptRequest.command .randrange [.int (-5), .int 5]).actions =
      some [.command 0x2100000005FFFFFFFB#72] := by decide +kernel
/-- `RANDFLOAT 2.5` as a decimal literal. `0.1` converts to no `f32` exactly (spec R69). -/
theorem test_script_randfloat :
    assemble .randfloat [.real false 5 2] = some (.randfloat 0x40200000#32) ∧
    assemble .randfloat [.real false 1 10] = none := by decide +kernel

/-- The example line of spec R69, with an expected response and a comment. -/
theorem test_script_text :
    lineOf "RANDRANGE -5, 5 -> OK 00000000FFFFFFFF ; R122".toList =
      some ⟨.command .randrange [.int (-5), .int 5], some ⟨.ok, 0xFFFFFFFF#64⟩⟩ := by decide +kernel

/-- Only SEED's operand may be hexadecimal, and only `i32` operands may be negative (spec R69). -/
theorem test_script_integer_forms :
    lineOf "SEED 0x1571".toList = some ⟨.command .seed [.int 5489], none⟩ ∧
    lineOf "RANDINT 0x8".toList = none ∧ lineOf "RANDINT -8".toList = some ⟨.command .randint [.int (-8)], none⟩ ∧
    lineOf "RANDRANGE 0x1, 5".toList = none ∧ lineOf "RDWORD 0x1".toList = none ∧ lineOf "SEED -0".toList = none ∧
    lineOf "RDWORD 311".toList = some ⟨.command .rdword [.int 311], none⟩ := by decide +kernel

/-- Expected data is 16 digits, or nothing for 0 on a status that is not OK. A bare `0x` is neither (spec R69). -/
theorem test_script_data_forms :
    lineOf "EXTRACT -> UNSEEDED".toList = some ⟨.command .extract [], some ⟨.unseeded, 0#64⟩⟩ ∧
    lineOf "EXTRACT -> UNSEEDED 0x".toList = none ∧ lineOf "EXTRACT -> OK".toList = none ∧
    lineOf "EXTRACT -> OK 0".toList = none ∧
    lineOf "EXTRACT -> OK 0xC96D191CF6F6AEA6".toList =
      some ⟨.command .extract [], some ⟨.ok, 0xC96D191CF6F6AEA6#64⟩⟩ := by decide +kernel

/-- C hexadecimal literals in either case spell 2.5 as `0x1.4p1`, and decimal ones in scientific notation (spec R69). -/
theorem test_script_float_forms :
    (["RANDFLOAT 0x1.4p1", "RANDFLOAT 0X1.4P+1", "RANDFLOAT 0xAp-2", "RANDFLOAT 25E-1", "RANDFLOAT 2.5",
      "RANDFLOAT bits:0x40200000"].all fun line =>
      (lineOf line.toList).bind (fun l => l.request.actions) == some [.command 0x310000000040200000#72]) = true ∧
    lineOf "RANDFLOAT 0x1.4".toList = none := by decide +kernel

/-! ## A loop that never accepts (spec R120, R197) -/

/-- An array of `highWord` alone is a fixed point of the twist (spec R95: none of its bits is selected). -/
theorem twistSteps_flat_highWord (n : Nat) : twistSteps n (flat highWord) = flat highWord := by
  induction n with
  | zero => rfl
  | succ n ih =>
    have hmix : twistMix highWord highWord = 0#64 := by decide +kernel
    rw [twistSteps_succ, ih, twistStep]
    simp only [flat, readWord_replicate, hmix]
    have := writeWord_readWord (Vector.replicate Config.N highWord) n
    simpa using this

theorem extractWord_flat_highWord (idx : Cursor) :
    (extractWord ⟨flat highWord, idx⟩).1 = temper highWord ∧
    (extractWord ⟨flat highWord, idx⟩).2.mt = flat highWord := by
  by_cases h : idx.toNat < Config.N
  · rw [extractWord_of_lt _ h]; simp [flat]
  · rw [extractWord_of_ge _ (Nat.le_of_not_lt h), twistSteps_flat_highWord]; simp [flat]

theorem afterExtractions_flat_highWord (k : Nat) (g : GeneratorState) (h : g.mt = flat highWord) :
    (afterExtractions k g).mt = flat highWord := by
  induction k generalizing g with
  | zero => exact h
  | succ k ih =>
    obtain ⟨mt, idx⟩ := g
    subst h
    exact ih _ (extractWord_flat_highWord idx).2

/-- There is a seeded engine on which RANDINT 1073741825 never accepts a draw. -/
theorem witness_neverAccepts (idx : Cursor) : NeverAccepts worstBound.toNat ⟨flat highWord, idx⟩ := by
  intro k
  have hmt := afterExtractions_flat_highWord k ⟨flat highWord, idx⟩ rfl
  have hdraw : drawBits ⟨flat highWord, idx⟩ k = 1077937152 := by
    rcases hg : afterExtractions k ⟨flat highWord, idx⟩ with ⟨mt, idx'⟩
    rw [hg] at hmt
    subst hmt
    rw [drawBits, hg, (extractWord_flat_highWord idx').1]
    decide +kernel
  rw [hdraw]
  decide

/-! ## Witnesses: for each statement with hypotheses, a state and operands that meet all of them, one for each clause -/

/-- An idle unseeded engine at whose port `w` stands. -/
def offered (w : CommandWord) : State := { State.reset with host := [.command w] }

/-- An idle seeded engine on an all-zero array with cursor 312, at whose port `w` stands. -/
def offeredSeeded (w : CommandWord) : State := engine (flat 0#64) 312#9 [.command w]

theorem witness_DecodeOfEncodeIsTheCommand : Instr.WellFormed (.rdword 311#9) := by decide

theorem witness_LegalWordIsTheEncodingOfItsCommand : decode 0x410000000000000137#72 = .ok (.rdword 311#9) := by decide

theorem witness_DecodingFollowsTheOpcodeMap :
    (∃ row ∈ opcodeMap, row.Matches 0x410000000000000137#72 ∧
      (row.mnemonic = .rdword → (argIndex (argField 0x410000000000000137#72)).toNat ≤ 311)) ∧
    decode 0x410000000000000137#72 = .ok (.rdword 311#9) := by decide

theorem witness_OpcodeRowsAreDisjoint :
    ∃ r ∈ opcodeMap, ∃ r' ∈ opcodeMap, r.Matches 0x410000000000000137#72 ∧ r'.Matches 0x410000000000000137#72 := by decide

theorem witness_ScriptLineSpellsItsCommand : Instr.WellFormed (.randfloat 0x7FC00000#32) := by decide

theorem witness_StepRunsTheDecodedCommand : (offered 0x400000000000000000#72).phase = .idle ∧
    (offered 0x400000000000000000#72).host = .command 0x400000000000000000#72 :: [] ∧
    decode 0x400000000000000000#72 = .ok .rdcur := by decide

theorem witness_FetchedWordRunsItsCommand : Instr.WellFormed (.seed 0#64) := by decide

theorem witness_IllegalWordAnswersIllegalCommand_opcode : (offered 0x990000000000000000#72).phase = .idle ∧
    (offered 0x990000000000000000#72).host = .command 0x990000000000000000#72 :: [] ∧
    ∀ row ∈ opcodeMap, row.Matches 0x990000000000000000#72 →
      row.mnemonic = .rdword ∧ 312 ≤ (argIndex (argField 0x990000000000000000#72)).toNat := by decide

theorem witness_IllegalWordAnswersIllegalCommand_index : (offeredSeeded 0x410000000000000138#72).phase = .idle ∧
    (offeredSeeded 0x410000000000000138#72).host = .command 0x410000000000000138#72 :: [] ∧
    ∀ row ∈ opcodeMap, row.Matches 0x410000000000000138#72 →
      row.mnemonic = .rdword ∧ 312 ≤ (argIndex (argField 0x410000000000000138#72)).toNat := by decide

theorem witness_StatusFollowsTheOrderOfChecks_illegal : (offered 0x200000000100000000#72).phase = .idle ∧
    (offered 0x200000000100000000#72).host = .command 0x200000000100000000#72 :: [] ∧
    decode 0x200000000100000000#72 = .error (.reservedBitSet 0x20#8) := by decide

theorem witness_StatusFollowsTheOrderOfChecks_unseeded : (offered 0x200000000000000000#72).phase = .idle ∧
    (offered 0x200000000000000000#72).host = .command 0x200000000000000000#72 :: [] ∧
    decode 0x200000000000000000#72 = .ok (.randint 0#32) ∧ (Instr.randint 0#32).mnemonic ≠ .seed ∧
    (offered 0x200000000000000000#72).seeded = false := by decide

theorem witness_StatusFollowsTheOrderOfChecks_argument : (offeredSeeded 0x200000000000000000#72).phase = .idle ∧
    (offeredSeeded 0x200000000000000000#72).host = .command 0x200000000000000000#72 :: [] ∧
    decode 0x200000000000000000#72 = .ok (.randint 0#32) ∧
    (offeredSeeded 0x200000000000000000#72).seeded = true ∧ ArgumentCheckFails (.randint 0#32) :=
  ⟨rfl, rfl, by decide, rfl, by simp [ArgumentCheckFails]⟩

theorem witness_StatusFollowsTheOrderOfChecks_executes : (offeredSeeded 0x200000000000000001#72).phase = .idle ∧
    (offeredSeeded 0x200000000000000001#72).host = .command 0x200000000000000001#72 :: [] ∧
    decode 0x200000000000000001#72 = .ok (.randint 1#32) ∧
    (offeredSeeded 0x200000000000000001#72).seeded = true ∧ ¬ ArgumentCheckFails (.randint 1#32) :=
  ⟨rfl, rfl, by decide, rfl, by simp [ArgumentCheckFails]⟩

/-- The widest range that fits and the narrowest that does not (spec R124). -/
theorem witness_ArgumentCheckFails_boundary : ArgumentCheckFails (.randrange 0xC0000000#32 0x40000000#32) ∧
    ¬ ArgumentCheckFails (.randrange 0xC0000000#32 0x3FFFFFFF#32) := by
  constructor <;> simp [ArgumentCheckFails]

theorem witness_OneResponseForEachAcceptedCommand : (offeredSeeded 0x200000000000000001#72).phase = .idle ∧
    (offeredSeeded 0x200000000000000001#72).host = .command 0x200000000000000001#72 :: [] := ⟨rfl, rfl⟩

theorem witness_ErrorResponseLeavesNoTrace : ∃ t, (offered 0x100000000000000000#72).phase = .idle ∧
    (offered 0x100000000000000000#72).host = .command 0x100000000000000000#72 :: [] ∧
    step (offered 0x100000000000000000#72) = .next t ∧
    t.responses = (offered 0x100000000000000000#72).responses ++ [⟨.unseeded, 0#64⟩] ∧ Status.unseeded ≠ .ok :=
  ⟨{ State.reset with responses := [⟨.unseeded, 0#64⟩] }, rfl, rfl, rfl, rfl, by decide⟩

theorem witness_ResetLeavesTheEngineUnseededAndIdle :
    ∃ s : State, s.host = .assertReset :: .releaseReset :: [] ∧ s.phase = .drawing ⟨1#32, 0#32⟩ :=
  ⟨⟨true, ⟨flat 0#64, 5#9⟩, .drawing ⟨1#32, 0#32⟩, [.assertReset, .releaseReset], []⟩, rfl, rfl⟩

theorem witness_NoCommandIsAcceptedInReset :
    ∃ s : State, s.phase = .inReset ∧ s.host = .command 0x020000000000000000#72 :: [] :=
  ⟨{ State.reset with phase := .inReset, host := [.command 0x020000000000000000#72] }, rfl, rfl⟩

theorem witness_CommandCutByResetGivesNoResponse :
    ∃ s : State, s.seeded = true ∧ s.host = .commandCutByReset 0x200000000000000008#72 :: [] :=
  ⟨engine (flat 0#64) 312#9 [.commandCutByReset 0x200000000000000008#72], rfl, rfl⟩

theorem witness_SeededStateDependsOnTheSeedAlone : (∃ s s' : State, s ≠ s' ∧ s.phase = s'.phase ∧ s.host = s'.host ∧
    s.responses = s'.responses) ∧ (1#64 : Word) ≠ 2#64 :=
  ⟨⟨engine (flat 0#64) 5#9 [], engine (flat 0#64) 6#9 [], by decide +kernel, rfl, rfl, rfl⟩, by decide⟩

theorem witness_TwistMixBitByBit : 62 < 64 := by decide

theorem witness_OnlySeedAndTwistWriteTheArray :
    ∃ t, exec .extract (engine (flat 7#64) 5#9 []) = .next t ∧ Instr.mnemonic .extract ≠ .seed := ⟨_, rfl, by decide⟩

theorem witness_ExtractAnswersTheTemperedWord :
    ((engine (flat 0#64) 311#9 []).seeded = true ∧ (engine (flat 0#64) 311#9 []).gen.idx.toNat < 312) ∧
    ((engine (flat 0#64) 312#9 []).seeded = true ∧ 312 ≤ (engine (flat 0#64) 312#9 []).gen.idx.toNat) := by decide

theorem witness_ExtractionStandsAtItsPlaceInTheStream : 1 ≤ 1 ∧ 1 ≤ 313 := by decide

theorem witness_ReadingCommandsAnswerAndWriteNothing : (engine (flat 0#64) 312#9 []).seeded = true ∧
    (311#9).toNat ≤ 311 ∧ 312 ≤ (312#9).toNat := by decide

/-- Every kind of action that draws nothing stands between SEED and GETSEED: a wait, a release of reset, GETSEED, RDCUR,
RDWORD 311, an illegal word, a reserved bit, and bounds that fail their check. -/
theorem witness_GetseedReturnsTheSeedUntilTheFirstDraw : ∃ (s : State) (actions : List HostAction),
    s.phase = .idle ∧ actions.length = 10 ∧ (∀ a ∈ actions, a.DrawsNothing) ∧
    s.host = .command (encode (.seed 5489#64)) :: (actions ++ .command (encode .getseed) :: []) := by
  let actions : List HostAction := [.wait, .releaseReset, .command 0x020000000000000000#72,
    .command 0x400000000000000000#72, .command 0x410000000000000137#72, .command 0x990000000000000000#72,
    .command 0x100000000000000001#72, .command 0x200000000000000000#72, .command 0x210000000500000005#72,
    .command 0x32BFF0000000000000#72]
  refine ⟨{ State.reset with host := .command (encode (.seed 5489#64)) :: (actions ++ .command (encode .getseed) :: []) },
    actions, rfl, rfl, ?_, rfl⟩
  simp only [actions, List.forall_mem_cons, HostAction.DrawsNothing, List.not_mem_nil, false_implies, implies_true]
  refine ⟨trivial, trivial, ?_, ?_, ?_, ?_, ?_, ?_, ?_, ?_, trivial⟩
  · intro i h
    cases (show decode 0x020000000000000000#72 = .ok .getseed by decide).symm.trans h
    simp [CommandDrawsNothing, Instr.mnemonic]
  · intro i h
    cases (show decode 0x400000000000000000#72 = .ok .rdcur by decide).symm.trans h
    simp [CommandDrawsNothing, Instr.mnemonic]
  · intro i h
    cases (show decode 0x410000000000000137#72 = .ok (.rdword 311#9) by decide).symm.trans h
    simp [CommandDrawsNothing, Instr.mnemonic]
  · intro i h; cases (show decode 0x990000000000000000#72 = .error (.unknownOpcode 0x99#8) by decide).symm.trans h
  · intro i h; cases (show decode 0x100000000000000001#72 = .error (.reservedBitSet 0x10#8) by decide).symm.trans h
  · intro i h
    cases (show decode 0x200000000000000000#72 = .ok (.randint 0#32) by decide).symm.trans h
    simp [CommandDrawsNothing, ArgumentCheckFails]
  · intro i h
    cases (show decode 0x210000000500000005#72 = .ok (.randrange 5#32 5#32) by decide).symm.trans h
    simp [CommandDrawsNothing, ArgumentCheckFails]
  · intro i h
    cases (show decode 0x32BFF0000000000000#72 = .ok (.randdouble 0xBFF0000000000000#64) by decide).symm.trans h
    simp [CommandDrawsNothing, ArgumentCheckFails]

/-- An engine on the last word of the first batch, and one whose next draw began the second (spec R156). -/
theorem witness_GetseedReturnsTheSeedUntilTheFirstDraw_after : 1 ≤ 312 ∧ 1 ≤ 313 ∧
    (∃ s : State, s.seeded = true ∧ s.gen = afterExtractions 312 (initializeFrom 5489#64)) ∧
    (∃ s : State, s.seeded = true ∧ s.gen = afterExtractions 313 (initializeFrom 5489#64)) :=
  have seededAt (g : GeneratorState) : ∃ s : State, s.seeded = true ∧ s.gen = g := ⟨⟨true, g, .idle, [], []⟩, rfl, rfl⟩
  ⟨by decide, by decide, seededAt _, seededAt _⟩

theorem witness_RandintRejectsNonPositiveBounds : (engine (flat 0#64) 312#9 []).seeded = true ∧ (0#32).toInt ≤ 0 ∧
    (0x80000000#32).toInt ≤ 0 := by decide

theorem witness_RandrangeAcceptsExactlyTheRangesThatFit : (engine (flat 0#64) 312#9 []).seeded = true := rfl

theorem witness_ComparatorAcceptsExactlyWhenTheSumFits :
    0 ≤ (3#32).toInt ∧ (3#32).toInt ≤ (10#32).toInt ∧ 1 ≤ (7#32).toInt := by decide

theorem witness_AcceptedDrawsAreUniform : 0 < (1#32).toInt ∧ 0 < (0x7FFFFFFF#32).toInt ∧ (1#32).toNat ∣ 2 ^ 31 := by
  decide +kernel

/-- A first draw that is accepted. -/
theorem witness_RandintAnswersItsFirstAcceptedDraw : ∃ s : State, s.seeded = true ∧ 0 < (1#32).toInt ∧
    FirstAccepted (1#32).toNat s.gen 0 :=
  ⟨engine (flat 0#64) 0#9 [], rfl, by decide, fun k hk => absurd hk (Nat.not_lt_zero k), by decide +kernel⟩

/-- A first draw that is rejected before a second that is accepted. -/
theorem witness_RandintAnswersItsFirstAcceptedDraw_second : ∃ s : State, s.seeded = true ∧ 0 < worstBound.toInt ∧
    FirstAccepted worstBound.toNat s.gen 1 := by
  refine ⟨engine ((flat 0#64).set 0 highWord) 0#9 [], rfl, by decide, fun k hk => ?_, by decide +kernel⟩
  have : k = 0 := by omega
  subst this
  decide +kernel

theorem witness_RandrangeAnswersItsFirstAcceptedDraw : ∃ s : State, s.seeded = true ∧
    1 ≤ (5#32).toInt - (0xFFFFFFFB#32).toInt ∧ (5#32).toInt - (0xFFFFFFFB#32).toInt ≤ 2 ^ 31 - 1 ∧
    FirstAccepted ((5#32).toInt - (0xFFFFFFFB#32).toInt).toNat s.gen 0 :=
  ⟨engine (flat 0#64) 0#9 [], rfl, by decide, by decide, fun k hk => absurd hk (Nat.not_lt_zero k), by decide +kernel⟩

theorem witness_PowerOfTwoBoundsDrawOnce : 0 ≤ 30 ∧ 30 ≤ 30 ∧ (engine (flat 0#64) 312#9 []).seeded = true := by decide

theorem witness_BoundedResultsAreInRange_randint : ∃ t, 0 < (8#32).toInt ∧
    exec (.randint 8#32) (engine (flat 0#64) 0#9 []) = .next t ∧ t.responses = [] ++ [⟨.ok, 0#64⟩] := by
  have h : answers (.randint 8#32) (engine (flat 0#64) 0#9 []) = some ([⟨.ok, 0#64⟩], 1#9) := by decide +kernel
  obtain ⟨t, ht, hr⟩ := next_of_answers h
  exact ⟨t, by decide, ht, hr⟩

theorem witness_BoundedResultsAreInRange_randrange : ∃ t,
    exec (.randrange 0xFFFFFFFB#32 5#32) (engine (flat 0#64) 0#9 []) = .next t ∧
    t.responses = [] ++ [⟨.ok, 0xFFFFFFFB#64⟩] := by
  have h : answers (.randrange 0xFFFFFFFB#32 5#32) (engine (flat 0#64) 0#9 []) =
    some ([⟨.ok, 0xFFFFFFFB#64⟩], 1#9) := by decide +kernel
  exact next_of_answers h

theorem witness_LoopIsLeftRunningOnlyIfItNeverAccepts : ∃ s : State, s.seeded = true ∧ 0 < worstBound.toInt ∧
    NeverAccepts worstBound.toNat s.gen ∧
    1 ≤ worstBound.toInt - (0#32).toInt ∧ worstBound.toInt - (0#32).toInt ≤ 2 ^ 31 - 1 :=
  ⟨engine (flat highWord) 5#9 [], rfl, by decide, witness_neverAccepts 5#9, by decide, by decide⟩

theorem witness_HungEngineAnswersNothingUntilReset : ∃ (s : State) (job : BoundedJob), s.phase = .drawing job ∧
    0 < job.bound.toInt ∧ NeverAccepts job.bound.toNat s.gen ∧ (∀ rest, s.host ≠ .assertReset :: rest) ∧
    (∀ w rest, s.host ≠ .commandCutByReset w :: rest) ∧ s.Legal :=
  ⟨⟨true, ⟨flat highWord, 5#9⟩, .drawing ⟨worstBound, 0#32⟩, [.command 0x100000000000000000#72], []⟩,
    ⟨worstBound, 0#32⟩, rfl, by decide, witness_neverAccepts 5#9, by simp, by simp,
    ⟨by decide, by simp, by simp, fun job h => by cases h; decide⟩⟩

theorem witness_UniformAnswersTheScaledWord : (engine (flat 0#64) 312#9 []).seeded = true := rfl

/-- The extremes of the scaled word (spec R137, R138). -/
theorem witness_UniformIsExactScaling : uniformBits 1#64 = 0#64 ∧ uniformBits 2#64 = 0x3C00000000000000#64 ∧
    (1#64 : Word).toNat ≤ (2#64 : Word).toNat ∧ 2 ^ 64 - 1 < 2 ^ 64 := by decide +kernel

theorem witness_UniformReachesOneExactlyAtTheTop : (0xFFFFFFFFFFFFFC00#64 : Word) ≤ 0xFFFFFFFFFFFFFC00#64 ∧
    (0xFFFFFFFFFFFFFBFF#64 : Word) < 0xFFFFFFFFFFFFFC00#64 ∧
    uniformBits 0xFFFFFFFFFFFFFC00#64 = 0x3FF0000000000000#64 := by decide +kernel

theorem witness_RanddoubleAnswersTheRoundedProduct : (engine (flat 0#64) 312#9 []).seeded = true ∧
    ¬ ArgumentCheckFails (.randdouble 1#64) ∧ ¬ ArgumentCheckFails (.randdouble 0x7FF8000000000000#64) ∧
    value64 0x7FF8000000000000#64 = .nan := by
  refine ⟨rfl, ?_, ?_, by decide +kernel⟩ <;> simp [ArgumentCheckFails]

theorem witness_RandfloatNarrowsThenMultiplies : (engine (flat 0#64) 312#9 []).seeded = true ∧
    ¬ ArgumentCheckFails (.randfloat 1#32) ∧ ¬ ArgumentCheckFails (.randfloat 0x7FC00000#32) ∧
    value32 0x7FC00000#32 = .nan := by
  refine ⟨rfl, ?_, ?_, by decide +kernel⟩ <;> simp [ArgumentCheckFails]

theorem witness_RealBoundCheckIsTheIeeeComparison : (engine (flat 0#64) 312#9 []).seeded = true ∧
    (0x8000000000000000#64 ≤ (0xFFF0000000000000#64 : F64) ∧ (0xFFF0000000000000#64 : F64) ≤ 0xFFF0000000000000#64) ∧
    ¬ ((0xFFF0000000000001#64 : F64) ≤ 0xFFF0000000000000#64) ∧
    ¬ ((0xFF800001#32 : F32) ≤ 0xFF800000#32) := by decide

theorem witness_RealProductsStayWithinTheBound :
    ((0#64 : F64) < 1#64 ∧ (1#64 : F64) < 0x7FF0000000000000#64 ∧
      uniformBits 0xFFFFFFFFFFFFFFFF#64 = 0x3FF0000000000000#64) ∧
    (uniformBits 2#64 ≠ 0#64 ∧ uniformBits 0#64 = 0#64 ∧ value64 0x7FF8000000000000#64 = .nan) ∧
    ((0#32 : F32) < 1#32 ∧ (1#32 : F32) < 0x7F800000#32 ∧
      0x3FEFFFFFF0000000#64 ≤ uniformBits 0xFFFFFFFFFFFFFFFF#64 ∧ value32 0x7FC00000#32 = .nan) ∧
    (narrow 0#32 (uniformBits 0xFFFFFF8000000000#64) = 0x3F800000#32 ∧
      uniformBits 0xFFFFFF8000000000#64 ≠ 0x3FF0000000000000#64) := by decide +kernel

theorem witness_RoundingIsToNearestTiesToEven : 0 < 3 ∧ binary64 ∈ [binary64, binary32] ∧
    binary64.roundMagnitude 1 3 < binary64.infinityBits ∧ 0 < binary64.infinityBits ∧
    binary32.roundMagnitude 1 3 < binary32.infinityBits ∧
    binary32.roundMagnitude (2 ^ 128) 1 = binary32.infinityBits := by decide +kernel

theorem witness_UnseededEngineAnswersUnseeded : Instr.WellFormed .extract ∧ Instr.mnemonic .extract ≠ .seed ∧
    State.reset.seeded = false := by decide

theorem witness_CommandsLeaveTheRestUnchanged : ∃ t, exec .extract (engine (flat 7#64) 311#9 []) = .next t ∧
    (engine (flat 7#64) 311#9 []).gen.idx.toNat < 312 ∧ Instr.mnemonic .extract = .extract := ⟨_, rfl, by decide, rfl⟩

theorem witness_CommandsLeaveTheRestUnchanged_nothing : (State.reset.phase = .idle ∧ State.reset.host = []) ∧
    (∃ s : State, s.phase = .inReset ∧ s.host = .wait :: []) ∧ (∃ s : State, s.phase = .inReset ∧ s.host = []) ∧
    (∃ s : State, s.seeded = true ∧ s.phase = .idle ∧ s.host = .wait :: []) :=
  ⟨⟨rfl, rfl⟩, ⟨{ State.reset with phase := .inReset, host := [.wait] }, rfl, rfl⟩,
    ⟨{ State.reset with phase := .inReset }, rfl, rfl⟩, engine (flat 7#64) 5#9 [.wait], rfl, rfl, rfl⟩

theorem witness_CommandsLeaveTheRestUnchanged_release :
    (∃ s : State, s.seeded = true ∧ s.phase ≠ .inReset ∧ s.host = .releaseReset :: []) ∧
    (∃ s : State, s.phase = .drawing ⟨1#32, 0#32⟩ ∧ s.phase ≠ .inReset ∧ s.host = .releaseReset :: []) :=
  ⟨⟨engine (flat 7#64) 5#9 [.releaseReset], rfl, by simp [engine], rfl⟩,
    ⟨true, ⟨flat 0#64, 5#9⟩, .drawing ⟨1#32, 0#32⟩, [.releaseReset], []⟩, rfl, by simp, rfl⟩

theorem witness_OnlySeedAndResetWriteSeeded_seed :
    ∃ t, step (offered 0x010000000000001571#72) = .next t ∧ (offered 0x010000000000001571#72).AcceptsSeed ∧
      t.seeded ≠ (offered 0x010000000000001571#72).seeded :=
  ⟨_, rfl, ⟨rfl, _, 0x1571#64, [], rfl, by decide⟩, by decide +kernel⟩

theorem witness_OnlySeedAndResetWriteSeeded_reset : ∃ s t : State, step s = .next t ∧ s.ResetIsAsserted ∧
    t.seeded ≠ s.seeded :=
  ⟨engine (flat 7#64) 5#9 [.assertReset], _, rfl, ⟨[], .inl rfl⟩, by decide +kernel⟩

theorem witness_CommandsDependOnTheArchitecturalStateAlone : ∃ s s' : State, s ≠ s' ∧ s.seeded = s'.seeded ∧
    s.gen = s'.gen ∧ s.phase = s'.phase :=
  ⟨engine (flat 0#64) 5#9 [], engine (flat 0#64) 5#9 [.wait], by decide +kernel, rfl, rfl, rfl⟩

theorem witness_StepKeepsLegalStates :
    ∃ t, (engine (flat 7#64) 5#9 []).Legal ∧ step (engine (flat 7#64) 5#9 []) = .next t :=
  ⟨_, ⟨by decide, by simp [engine], by simp [engine], by simp [engine]⟩, rfl⟩

theorem witness_StepKeepsTheEngineOnAStream : ∃ s t : State, s.seeded = true ∧ s.OnStream ∧ step s = .next t :=
  ⟨engine (seedArray 5489#64) 312#9 [], _, rfl, fun _ => ⟨5489#64, 0, rfl⟩, rfl⟩

theorem witness_UnseededContentsAreNeverObserved : ∃ s s' t : State, s.Legal ∧ s ≠ s' ∧ s.AgreesWhereDefined s' ∧
    step s = .next t :=
  ⟨State.reset, { State.reset with gen := ⟨flat 1#64, 7#9⟩ }, State.reset,
    ⟨by decide, by simp, by simp, by simp⟩, by decide +kernel, ⟨rfl, rfl, rfl, rfl, by simp⟩, rfl⟩

end Sys2Proof.Tests
end

section
/-! Rules of the shared operations, in the order of the model: extraction and its effect on `MT` and `IDX`, the
commands that draw once, and the bounded-integer loop. -/

namespace Sys2Proof.Machine

/-- One extraction twists the array or leaves it (spec R90, R101). -/
theorem extractWord_mt (g : GeneratorState) :
    (extractWord g).2.mt = g.mt ∨ (extractWord g).2.mt = twistSteps Config.N g.mt := by
  by_cases h : g.idx.toNat < Config.N
  · rw [extractWord_of_lt g h]; exact .inl rfl
  · rw [extractWord_of_ge g (Nat.le_of_not_lt h)]; exact .inr rfl

/-- Extractions write the array by whole twists only (spec R21). -/
theorem afterExtractions_mt (k : Nat) (g : GeneratorState) :
    ∃ n, (afterExtractions k g).mt = (twistSteps Config.N)^[n] g.mt := by
  induction k generalizing g with
  | zero => exact ⟨0, rfl⟩
  | succ k ih =>
    obtain ⟨n, hn⟩ := ih (extractWord g).2
    rw [afterExtractions_succ, hn]
    rcases extractWord_mt g with h | h
    · exact ⟨n, by rw [h]⟩
    · exact ⟨n + 1, by rw [h, Function.iterate_succ_apply]⟩

/-- Extractions keep the cursor in 0..312 (spec R25, R101). -/
theorem afterExtractions_idx_le (k : Nat) {g : GeneratorState} (h : g.idx.toNat ≤ Config.N) :
    (afterExtractions k g).idx.toNat ≤ Config.N := by
  induction k generalizing g with
  | zero => exact h
  | succ k ih => exact ih (extractWord_idx_bounds g).2

theorem initializeFrom_idx_toNat (seed : Word) : (initializeFrom seed).idx.toNat = Config.N := rfl

/-- The ending shared by EXTRACT, UNIFORM, RANDFLOAT and RANDDOUBLE: one word is drawn and the answer is `data` of the
generator state before the draw. -/
def drawOnce (data : GeneratorState → Word) (s : State) : Host.Outcome State Fault Refusal :=
  finish (data s.gen) { s with gen := (extractWord s.gen).2 }

/-- The answer of EXTRACT, as a function of the generator state it draws from (spec R100). -/
def extractData (g : GeneratorState) : Word := sel64 (extractWord g).1

/-- The answer of UNIFORM, as a function of the generator state it draws from (spec R136). -/
def uniformData (g : GeneratorState) : Word := uniformOf (Config.freeNan64 g.mt g.idx 0#64) (extractWord g).1

/-- The answer of RANDFLOAT, as a function of the generator state it draws from (spec R140). -/
def randfloatData (bound : F32) (g : GeneratorState) : Word :=
  pack32 (mul32 (Config.freeNan32 g.mt g.idx bound) (narrow (Config.freeNan32 g.mt g.idx bound) (uniformData g)) bound)

/-- The answer of RANDDOUBLE, as a function of the generator state it draws from (spec R139). -/
def randdoubleData (bound : F64) (g : GeneratorState) : Word :=
  mul64 (Config.freeNan64 g.mt g.idx bound) (uniformOf (Config.freeNan64 g.mt g.idx bound) (extractWord g).1) bound

theorem exec_extract (s : State) : exec .extract s = whenSeeded s (drawOnce extractData s) := rfl

theorem exec_uniform (s : State) : exec .uniform s = whenSeeded s (drawOnce uniformData s) := rfl

theorem exec_randfloat (bound : F32) (s : State) : exec (.randfloat bound) s = whenSeeded s
    (if nonPositiveF32 bound then raise .invalidArgument s else drawOnce (randfloatData bound) s) := rfl

theorem exec_randdouble (bound : F64) (s : State) : exec (.randdouble bound) s = whenSeeded s
    (if nonPositive64 bound then raise .invalidArgument s else drawOnce (randdoubleData bound) s) := rfl

theorem exec_randint (bound : I32) (s : State) : exec (.randint bound) s = whenSeeded s
    (if nonPositive32 bound then raise .invalidArgument s else runJob ⟨bound, 0#32⟩ s) := rfl

theorem exec_randrange (min max : I32) (s : State) : exec (.randrange min max) s = whenSeeded s
    (if emptyRange32 min max then raise .invalidArgument s
     else if nonPositive32 (sub32 max min) then raise .invalidArgument s
     else runJob ⟨sub32 max min, min⟩ s) := rfl

theorem exec_rdword (index : BitVec 9) (s : State) : exec (.rdword index) s =
    if index.toNat < Config.N then whenSeeded s (finish (readWord s.gen.mt index.toNat) s)
    else raise .illegalCommand s := rfl

/-- However many passes of the loop are run, they consume whole draws (spec R117). -/
theorem boundedPasses_gen (bound : I32) (n : Nat) (g : GeneratorState) :
    ∃ d, (boundedPasses bound n g).2 = afterExtractions d g := by
  rcases boundedPasses_cases bound g n with ⟨d, -, -, val, -, heq⟩ | ⟨-, heq⟩
  · exact ⟨d + 1, by rw [heq]⟩
  · exact ⟨n, by rw [heq]⟩

end Sys2Proof.Machine
end

section
/-! What a command can do, said once: `exec_next` gives the shape of the next state of every command. -/

namespace Sys2Proof.Machine

variable {i : Instr} {s t : State} {job : BoundedJob} {c : Host.Outcome State Fault Refusal}

/-- The commands that consume at most one word. -/
def DrawsAtMostOnce (i : Instr) : Prop :=
  i.mnemonic = .extract ∨ i.mnemonic = .uniform ∨ i.mnemonic = .randfloat ∨ i.mnemonic = .randdouble

/-- The commands that run the rejection loop. -/
def RunsTheLoop (i : Instr) : Prop := i.mnemonic = .randint ∨ i.mnemonic = .randrange

/-- What the rejection loop of `job` leaves of `s` after some passes: it has answered and is idle, or it is still
drawing. -/
inductive LoopOutcome (job : BoundedJob) (s : State) : State → Prop
  | answered (d : Nat) (r : Response) : LoopOutcome job s
      { s with gen := afterExtractions d s.gen, phase := .idle, responses := s.responses ++ [r] }
  | stillDrawing (d : Nat) : LoopOutcome job s { s with gen := afterExtractions d s.gen, phase := .drawing job }

theorem settleJob_loopOutcome {result : Option I32 × GeneratorState} (hgen : ∃ d, result.2 = afterExtractions d s.gen)
    (h : settleJob job result s = .next t) : LoopOutcome job s t := by
  obtain ⟨d, hd⟩ := hgen
  rcases settleJob_next h with ⟨val, -, rfl⟩ | ⟨-, rfl⟩ <;> rw [hd]
  · exact .answered d _
  · exact .stillDrawing d

theorem runJob_next (h : runJob job s = .next t) : LoopOutcome job s t :=
  settleJob_loopOutcome (boundedPasses_gen _ _ _) h

theorem continueJob_next (h : continueJob job s = .next t) : LoopOutcome job s t :=
  settleJob_loopOutcome ⟨1, boundedPass_gen _ _⟩ h

/-- What the command `i` can make of `s`. -/
inductive ExecOutcome (i : Instr) (s : State) : State → Prop
  | seeded (seed : Word) (r : Response) (hi : i = .seed seed) : ExecOutcome i s
      { s with seeded := true, gen := initializeFrom seed, responses := s.responses ++ [r] }
  | answered (r : Response) : ExecOutcome i s { s with responses := s.responses ++ [r] }
  | drew (r : Response) (hi : DrawsAtMostOnce i) (hseeded : s.seeded = true) : ExecOutcome i s
      { s with gen := (extractWord s.gen).2, responses := s.responses ++ [r] }
  | looped {t : State} (job : BoundedJob) (hi : RunsTheLoop i) (hseeded : s.seeded = true)
      (hbound : 0 < job.bound.toInt) (ht : LoopOutcome job s t) : ExecOutcome i s t

theorem raise_execOutcome {e : EngineError} (h : raise e s = .next t) : ExecOutcome i s t := by
  cases h; exact .answered _

theorem finish_execOutcome {d : Word} (h : finish d s = .next t) : ExecOutcome i s t := by
  cases h; exact .answered _

theorem drawOnce_execOutcome {data : GeneratorState → Word} (hi : DrawsAtMostOnce i) (hseeded : s.seeded = true)
    (h : drawOnce data s = .next t) : ExecOutcome i s t := by
  cases h; exact .drew _ hi hseeded

theorem runJob_execOutcome {bound offset : I32} (hi : RunsTheLoop i) (hseeded : s.seeded = true)
    (hbound : ¬ nonPositive32 bound = true) (h : runJob ⟨bound, offset⟩ s = .next t) : ExecOutcome i s t :=
  .looped ⟨bound, offset⟩ hi hseeded (by simpa [nonPositive32] using hbound) (runJob_next h)

/-- The gate adds nothing but the UNSEEDED answer. -/
theorem whenSeeded_execOutcome (hc : s.seeded = true → c = .next t → ExecOutcome i s t)
    (h : whenSeeded s c = .next t) : ExecOutcome i s t := by
  rcases whenSeeded_next h with ⟨hs, hct⟩ | ⟨-, rfl⟩
  · exact hc hs hct
  · exact .answered _

/-- An argument check adds nothing but the INVALID_ARGUMENT answer. -/
theorem check_execOutcome {p : Prop} [Decidable p] (hc : ¬ p → c = .next t → ExecOutcome i s t)
    (h : (if p then raise .invalidArgument s else c) = .next t) : ExecOutcome i s t := by
  by_cases hp : p
  · rw [if_pos hp] at h; exact raise_execOutcome h
  · rw [if_neg hp] at h; exact hc hp h

/-- Every command ends in one of the outcomes. -/
theorem exec_next (h : exec i s = .next t) : ExecOutcome i s t := by
  cases i with
  | seed value => cases h; exact .seeded value _ rfl
  | getseed => exact whenSeeded_execOutcome (fun _ => finish_execOutcome) h
  | extract =>
    rw [exec_extract] at h
    exact whenSeeded_execOutcome (drawOnce_execOutcome (.inl rfl)) h
  | randint bound =>
    rw [exec_randint] at h
    exact whenSeeded_execOutcome (fun hs => check_execOutcome (runJob_execOutcome (.inl rfl) hs)) h
  | randrange min max =>
    rw [exec_randrange] at h
    exact whenSeeded_execOutcome
      (fun hs => check_execOutcome fun _ => check_execOutcome (runJob_execOutcome (.inr rfl) hs)) h
  | uniform =>
    rw [exec_uniform] at h
    exact whenSeeded_execOutcome (drawOnce_execOutcome (.inr (.inl rfl))) h
  | randfloat bound =>
    rw [exec_randfloat] at h
    exact whenSeeded_execOutcome
      (fun hs => check_execOutcome fun _ => drawOnce_execOutcome (.inr (.inr (.inl rfl))) hs) h
  | randdouble bound =>
    rw [exec_randdouble] at h
    exact whenSeeded_execOutcome
      (fun hs => check_execOutcome fun _ => drawOnce_execOutcome (.inr (.inr (.inr rfl))) hs) h
  | rdcur => exact whenSeeded_execOutcome (fun _ => finish_execOutcome) h
  | rdword index =>
    rw [exec_rdword] at h
    split at h
    · exact whenSeeded_execOutcome (fun _ => finish_execOutcome) h
    · exact raise_execOutcome h

end Sys2Proof.Machine
end

section
/-! What a step can do, said once: the step is the effect of one host action (`step_eq_act`), and `act_next` gives the
shape of what it leaves. -/

namespace Sys2Proof.Machine

variable {s t : State} {a : HostAction}

/-- `s` once the host's next action, if it has one, is taken off its list. -/
def State.takeAction (s : State) : State := { s with host := s.host.tail }

/-- The host's next action: with none left it waits. -/
def State.nextAction (s : State) : HostAction := s.host.headD .wait

@[simp] theorem takeAction_seeded (s : State) : s.takeAction.seeded = s.seeded := rfl
@[simp] theorem takeAction_gen (s : State) : s.takeAction.gen = s.gen := rfl
@[simp] theorem takeAction_phase (s : State) : s.takeAction.phase = s.phase := rfl
@[simp] theorem takeAction_responses (s : State) : s.takeAction.responses = s.responses := rfl

/-- A step is the effect of the host's next action: an engine left alone behaves as under a wait. -/
theorem step_eq_act (s : State) : step s = act s.nextAction s.takeAction := by
  obtain ⟨seeded, gen, phase, host, responses⟩ := s
  cases host <;> rfl

theorem nextAction_of_cons {rest : List HostAction} (h : s.host = a :: rest) : s.nextAction = a := by
  simp [State.nextAction, h]

theorem goOn_of_not_drawing (h : ∀ job, s.phase ≠ .drawing job) : goOn s = .next s := by
  unfold goOn; split
  · rfl
  · rfl
  · exact absurd ‹_› (h _)

theorem offerCommand_of_idle (w : CommandWord) (h : s.phase = .idle) : offerCommand w s = runCommand w s := by
  simp [offerCommand, h]

theorem offerCommand_of_not_idle (w : CommandWord) (h : s.phase ≠ .idle) : offerCommand w s = goOn s := by
  unfold offerCommand; split
  · exact absurd ‹_› h
  · rfl
  · rfl

theorem runCommand_of_ok {w : CommandWord} {i : Instr} (h : decode w = .ok i) (s : State) :
    runCommand w s = exec i s := by
  simp [runCommand, h]

/-- What the host action `a` can make of `s`. -/
inductive ActOutcome (a : HostAction) (s : State) : State → Prop
  | unchanged : ActOutcome a s s
  | looped {t : State} (job : BoundedJob) (hphase : s.phase = .drawing job) (ht : LoopOutcome job s t) :
      ActOutcome a s t
  | illegal (w : CommandWord) (ha : a = .command w) (hphase : s.phase = .idle) (hdecode : ∀ i, decode w ≠ .ok i) :
      ActOutcome a s { s with responses := s.responses ++ [⟨.illegalCommand, 0#64⟩] }
  | executed {t : State} (w : CommandWord) (i : Instr) (ha : a = .command w) (hphase : s.phase = .idle)
      (hdecode : decode w = .ok i) (ht : ExecOutcome i s t) : ActOutcome a s t
  | reset (ha : a = .assertReset ∨ ∃ w, a = .commandCutByReset w) : ActOutcome a s s.enterReset
  | released (hphase : s.phase = .inReset) : ActOutcome a s { s with phase := .idle }

theorem goOn_next (h : goOn s = .next t) : ActOutcome a s t := by
  cases hphase : s.phase with
  | drawing job =>
    simp only [goOn, hphase] at h
    exact .looped job hphase (continueJob_next h)
  | inReset | idle =>
    rw [goOn_of_not_drawing (by simp [hphase])] at h
    cases h; exact .unchanged

theorem runCommand_next {w : CommandWord} (hphase : s.phase = .idle) (h : runCommand w s = .next t) :
    ActOutcome (.command w) s t := by
  unfold runCommand at h
  split at h
  · next hdecode => cases h; exact .illegal w rfl hphase (by simp [hdecode])
  · next i hdecode => exact .executed w i rfl hphase hdecode (exec_next h)

theorem leaveReset_actOutcome : ActOutcome a s s.leaveReset := by
  by_cases hphase : s.phase = .inReset
  · rw [show s.leaveReset = { s with phase := .idle } by simp [State.leaveReset, hphase]]
    exact .released hphase
  · rw [leaveReset_of_not_inReset s hphase]
    exact .unchanged

/-- Every host action ends in one of the outcomes. -/
theorem act_next (h : act a s = .next t) : ActOutcome a s t := by
  cases a with
  | wait => exact goOn_next h
  | command w =>
    by_cases hphase : s.phase = .idle
    · exact runCommand_next hphase (offerCommand_of_idle w hphase ▸ h)
    · exact goOn_next (offerCommand_of_not_idle w hphase ▸ h)
  | commandCutByReset w => cases h; exact .reset (.inr ⟨w, rfl⟩)
  | assertReset => cases h; exact .reset (.inl rfl)
  | releaseReset => cases h; exact leaveReset_actOutcome

theorem step_next (h : step s = .next t) : ActOutcome s.nextAction s.takeAction t :=
  act_next (step_eq_act s ▸ h)

end Sys2Proof.Machine
end

section
/-! The invariant `Legal`: it holds at reset, and every outcome of a loop, a command and a host action keeps it. -/

namespace Sys2Proof.Machine

variable {i : Instr} {s t : State} {job : BoundedJob} {a : HostAction}

/-- Of an idle engine `Legal` asks only that the cursor is in range. -/
theorem State.Legal.of_idle (hphase : s.phase = .idle) (hidx : s.gen.idx.toNat ≤ Config.N) : s.Legal :=
  ⟨hidx, by simp [hphase], by simp [hphase], by simp [hphase]⟩

theorem State.Legal.takeAction (h : s.Legal) : s.takeAction.Legal :=
  ⟨h.cursor_le, h.reset_unseeded, h.drawing_seeded, h.drawing_positive⟩

theorem enterReset_legal (s : State) : s.enterReset.Legal :=
  ⟨by simp, by simp, by simp, by simp⟩

theorem LoopOutcome.legal (h : LoopOutcome job s t) (hidx : s.gen.idx.toNat ≤ Config.N) (hseeded : s.seeded = true)
    (hbound : 0 < job.bound.toInt) : t.Legal := by
  cases h with
  | answered d r => exact .of_idle rfl (afterExtractions_idx_le d hidx)
  | stillDrawing d =>
    refine ⟨afterExtractions_idx_le d hidx, nofun, fun _ _ => hseeded, fun job' hjob => ?_⟩
    cases hjob; exact hbound

theorem ExecOutcome.legal (h : ExecOutcome i s t) (hphase : s.phase = .idle) (hidx : s.gen.idx.toNat ≤ Config.N) :
    t.Legal := by
  cases h with
  | seeded seed r => exact .of_idle hphase (initializeFrom_idx_toNat seed).le
  | answered r => exact .of_idle hphase hidx
  | drew r => exact .of_idle hphase (extractWord_idx_bounds s.gen).2
  | looped job _ hseeded hbound ht => exact ht.legal hidx hseeded hbound

theorem ActOutcome.legal (h : ActOutcome a s t) (hs : s.Legal) : t.Legal := by
  cases h with
  | unchanged => exact hs
  | looped job hphase ht =>
    exact ht.legal hs.cursor_le (hs.drawing_seeded job hphase) (hs.drawing_positive job hphase)
  | illegal w _ hphase => exact .of_idle hphase hs.cursor_le
  | executed w i _ hphase _ ht => exact ht.legal hphase hs.cursor_le
  | reset => exact enterReset_legal s
  | released => exact .of_idle rfl hs.cursor_le

/-- Settles O54: the step is one of the outcomes of a host action, and each keeps `Legal`. -/
theorem stepKeepsLegalStates : Obligations.StepKeepsLegalStates :=
  fun _ _ hs h => (step_next h).legal hs.takeAction

/-- Settles O53: the reset state is idle with cursor 0, and unseeded, so it need stand on no stream. -/
theorem resetStateIsLegal : Obligations.ResetStateIsLegal :=
  ⟨.of_idle rfl (by simp), nofun, rfl⟩

end Sys2Proof.Machine
end

section
/-! Non-interference: a seeded engine is determined by what is defined of it, and an unseeded one answers without
looking at `MT` and `IDX`. -/

namespace Sys2Proof.Machine

variable {s s' : State} {o o' : Host.Outcome State Fault Refusal}

theorem State.AgreesWhereDefined.refl (s : State) : s.AgreesWhereDefined s :=
  ⟨rfl, rfl, rfl, rfl, fun _ => rfl⟩

/-- Of a seeded engine everything is defined. -/
theorem State.AgreesWhereDefined.eq_of_seeded (h : s.AgreesWhereDefined s') (hs : s.seeded = true) : s = s' := by
  obtain ⟨hseeded, hphase, hhost, hresponses, hgen⟩ := h
  have hgen := hgen hs
  cases s; cases s'; simp_all

theorem State.AgreesWhereDefined.takeAction (h : s.AgreesWhereDefined s') :
    s.takeAction.AgreesWhereDefined s'.takeAction :=
  ⟨h.seeded_eq, h.phase_eq, congrArg List.tail h.host_eq, h.responses_eq, h.gen_eq⟩

theorem State.AgreesWhereDefined.respond (h : s.AgreesWhereDefined s') (st : Status) (d : Word) :
    (s.respond st d).AgreesWhereDefined (s'.respond st d) :=
  ⟨h.seeded_eq, h.phase_eq, h.host_eq, by simp [h.responses_eq], h.gen_eq⟩

theorem State.AgreesWhereDefined.enterReset (h : s.AgreesWhereDefined s') :
    s.enterReset.AgreesWhereDefined s'.enterReset :=
  ⟨rfl, rfl, h.host_eq, h.responses_eq, nofun⟩

theorem State.AgreesWhereDefined.leaveReset (h : s.AgreesWhereDefined s') :
    s.leaveReset.AgreesWhereDefined s'.leaveReset := by
  refine ⟨by simp [h.seeded_eq], ?_, by simp [h.host_eq], by simp [h.responses_eq], by simpa using h.gen_eq⟩
  by_cases hphase : s.phase = .inReset
  · rw [leaveReset_phase_of_inReset s hphase, leaveReset_phase_of_inReset s' (h.phase_eq ▸ hphase)]
  · rw [leaveReset_of_not_inReset s hphase, leaveReset_of_not_inReset s' (h.phase_eq ▸ hphase)]
    exact h.phase_eq

theorem State.AgreesWhereDefined.setSeeded (h : s.AgreesWhereDefined s') (g : GeneratorState) :
    State.AgreesWhereDefined { s with seeded := true, gen := g } { s' with seeded := true, gen := g } :=
  ⟨rfl, h.phase_eq, h.host_eq, h.responses_eq, fun _ => rfl⟩

/-- Both answer next states, which differ at most in what is undefined. -/
def Matched (o o' : Host.Outcome State Fault Refusal) : Prop :=
  ∃ t t', o = .next t ∧ o' = .next t' ∧ t.AgreesWhereDefined t'

/-- An unseeded engine either takes a SEED or raises an error that the command alone decides (spec R67, R169). -/
theorem exec_of_unseeded (i : Instr) :
    (∃ seed, i = .seed seed) ∨ ∃ e, ∀ s : State, s.seeded = false → exec i s = raise e s := by
  cases i with
  | seed value => exact .inl ⟨value, rfl⟩
  | rdword index =>
    by_cases hindex : index.toNat < Config.N
    · exact .inr ⟨.unseeded, fun s hs => (if_pos hindex).trans (whenSeeded_of_unseeded _ hs)⟩
    · exact .inr ⟨.illegalCommand, fun s _ => if_neg hindex⟩
  | getseed | extract | randint | randrange | uniform | randfloat | randdouble | rdcur =>
    exact .inr ⟨.unseeded, fun s hs => whenSeeded_of_unseeded _ hs⟩

theorem raise_matched (h : s.AgreesWhereDefined s') (e : EngineError) : Matched (raise e s) (raise e s') :=
  ⟨_, _, rfl, rfl, h.respond _ _⟩

theorem runCommand_matched (w : CommandWord) (h : s.AgreesWhereDefined s') (hs : s.seeded = false) :
    Matched (runCommand w s) (runCommand w s') := by
  unfold runCommand
  split
  · exact raise_matched h _
  · next i _ =>
    rcases exec_of_unseeded i with ⟨seed, rfl⟩ | ⟨e, he⟩
    · exact ⟨_, _, rfl, rfl, (h.setSeeded _).respond _ _⟩
    · rw [he s hs, he s' (h.seeded_eq ▸ hs)]
      exact raise_matched h e

theorem goOn_matched (h : s.AgreesWhereDefined s') (hdrawing : ∀ job, s.phase ≠ .drawing job) :
    Matched (goOn s) (goOn s') :=
  ⟨s, s', goOn_of_not_drawing hdrawing, goOn_of_not_drawing (h.phase_eq ▸ hdrawing), h⟩

/-- On an unseeded engine outside a loop no host action tells two contents of `MT` and `IDX` apart (spec R32). -/
theorem act_matched (a : HostAction) (h : s.AgreesWhereDefined s') (hs : s.seeded = false)
    (hdrawing : ∀ job, s.phase ≠ .drawing job) : Matched (act a s) (act a s') := by
  cases a with
  | wait => exact goOn_matched h hdrawing
  | command w =>
    by_cases hphase : s.phase = .idle
    · rw [act, act, offerCommand_of_idle w hphase, offerCommand_of_idle w (h.phase_eq ▸ hphase)]
      exact runCommand_matched w h hs
    · rw [act, act, offerCommand_of_not_idle w hphase, offerCommand_of_not_idle w (h.phase_eq ▸ hphase)]
      exact goOn_matched h hdrawing
  | commandCutByReset w => exact ⟨_, _, rfl, rfl, h.enterReset⟩
  | assertReset => exact ⟨_, _, rfl, rfl, h.enterReset⟩
  | releaseReset => exact ⟨_, _, rfl, rfl, h.leaveReset⟩

theorem State.Legal.not_drawing_of_unseeded (h : s.Legal) (hs : s.seeded = false) (job : BoundedJob) :
    s.phase ≠ .drawing job :=
  fun hphase => by simp [h.drawing_seeded job hphase] at hs

theorem step_matched (hlegal : s.Legal) (h : s.AgreesWhereDefined s') (hs : s.seeded = false) :
    Matched (step s) (step s') := by
  rw [step_eq_act, step_eq_act, show s'.nextAction = s.nextAction by simp [State.nextAction, h.host_eq]]
  exact act_matched _ h.takeAction hs (hlegal.not_drawing_of_unseeded hs)

/-- Settles O56: two seeded states that agree are equal, and unseeded ones take matching steps. -/
theorem unseededContentsAreNeverObserved : Obligations.UnseededContentsAreNeverObserved := by
  intro s s' t hlegal hagree hstep
  cases hs : s.seeded with
  | true =>
    obtain rfl := hagree.eq_of_seeded hs
    exact ⟨t, hstep, .refl t⟩
  | false =>
    obtain ⟨u, t', hu, ht', hut⟩ := step_matched hlegal hagree hs
    obtain rfl : u = t := Host.Outcome.next.inj (hu.symm.trans hstep)
    exact ⟨t', ht', hut⟩

end Sys2Proof.Machine
end

section
/-! What commands and steps leave unchanged: the frame of every outcome, and which steps write `SEEDED`. -/

namespace Sys2Proof.Machine

variable {i : Instr} {s t : State} {job : BoundedJob} {a : HostAction}

theorem LoopOutcome.seeded_eq (h : LoopOutcome job s t) : t.seeded = s.seeded := by
  cases h <;> rfl

theorem LoopOutcome.host_eq (h : LoopOutcome job s t) : t.host = s.host := by
  cases h <;> rfl

theorem LoopOutcome.responses (h : LoopOutcome job s t) :
    t.responses = s.responses ∨ ∃ r, t.responses = s.responses ++ [r] := by
  cases h with
  | answered d r => exact .inr ⟨r, rfl⟩
  | stillDrawing d => exact .inl rfl

theorem LoopOutcome.gen (h : LoopOutcome job s t) : ∃ d, t.gen = afterExtractions d s.gen := by
  cases h with
  | answered d r => exact ⟨d, rfl⟩
  | stillDrawing d => exact ⟨d, rfl⟩

theorem ExecOutcome.host_eq (h : ExecOutcome i s t) : t.host = s.host := by
  cases h with
  | looped job _ _ _ ht => exact ht.host_eq
  | seeded | answered | drew => rfl

theorem ExecOutcome.responses (h : ExecOutcome i s t) :
    t.responses = s.responses ∨ ∃ r, t.responses = s.responses ++ [r] := by
  cases h with
  | looped job _ _ _ ht => exact ht.responses
  | seeded _ r | answered r | drew r => exact .inr ⟨r, rfl⟩

/-- Only SEED writes `SEEDED` (spec R26). -/
theorem ExecOutcome.seeded_eq (h : ExecOutcome i s t) (hi : i.mnemonic ≠ .seed) : t.seeded = s.seeded := by
  cases h with
  | seeded seed r hseed => exact absurd (congrArg Instr.mnemonic hseed) hi
  | looped job _ _ _ ht => exact ht.seeded_eq
  | answered | drew => rfl

/-- Only the bounded-integer commands leave another phase. -/
theorem ExecOutcome.phase_eq (h : ExecOutcome i s t) (hi : ¬ RunsTheLoop i) : t.phase = s.phase := by
  cases h with
  | looped job hloop => exact absurd hloop hi
  | seeded | answered | drew => rfl

/-- A command other than SEED leaves `MT` and `IDX` as some number of extractions does. -/
theorem ExecOutcome.gen (h : ExecOutcome i s t) (hi : i.mnemonic ≠ .seed) : ∃ d, t.gen = afterExtractions d s.gen := by
  cases h with
  | seeded seed r hseed => exact absurd (congrArg Instr.mnemonic hseed) hi
  | answered r => exact ⟨0, rfl⟩
  | drew r => exact ⟨1, rfl⟩
  | looped job _ _ _ ht => exact ht.gen

/-- The reading commands write neither `MT` nor `IDX` (spec R156 to R158). -/
theorem ExecOutcome.gen_eq_of_reading (h : ExecOutcome i s t)
    (hi : i.mnemonic = .getseed ∨ i.mnemonic = .rdcur ∨ i.mnemonic = .rdword) : t.gen = s.gen := by
  cases h with
  | seeded seed r hseed => subst hseed; simp [Instr.mnemonic] at hi
  | answered r => rfl
  | drew r hdraws => rcases hi with hi | hi | hi <;> simp [DrawsAtMostOnce, hi] at hdraws
  | looped job hloop => rcases hi with hi | hi | hi <;> simp [RunsTheLoop, hi] at hloop

/-- Below cursor 312 a command that draws at most once leaves `MT` and moves `IDX` by at most one (spec R101). -/
theorem ExecOutcome.gen_of_drawsAtMostOnce (h : ExecOutcome i s t) (hi : DrawsAtMostOnce i)
    (hidx : s.gen.idx.toNat < Config.N) :
    t.gen.mt = s.gen.mt ∧ (t.gen.idx = s.gen.idx ∨ t.gen.idx = s.gen.idx + 1#9) := by
  cases h with
  | seeded seed r hseed => subst hseed; simp [DrawsAtMostOnce, Instr.mnemonic] at hi
  | answered r => exact ⟨rfl, .inl rfl⟩
  | drew r => simp [extractWord_of_lt s.gen hidx]
  | looped job hloop => rcases hloop with hloop | hloop <;> simp [DrawsAtMostOnce, hloop] at hi

/-- Settles O23: a command other than SEED extracts some number of words, and extractions write by whole twists. -/
theorem onlySeedAndTwistWriteTheArray : Obligations.OnlySeedAndTwistWriteTheArray := by
  intro i s t h hi
  obtain ⟨d, hd⟩ := (exec_next h).gen hi
  rw [hd]
  exact afterExtractions_mt d s.gen

/-- An engine that is idle or in reset and is left alone does nothing. -/
theorem step_of_wait (hphase : s.phase = .idle ∨ s.phase = .inReset)
    (hhost : s.host = [] ∨ ∃ rest, s.host = .wait :: rest) : step s = .next s.takeAction := by
  have hwait : s.nextAction = .wait := by
    rcases hhost with hhost | ⟨rest, hhost⟩ <;> simp [State.nextAction, hhost]
  rw [step_eq_act, hwait]
  refine goOn_of_not_drawing fun job => ?_
  rcases hphase with hphase | hphase <;> simp [hphase]

theorem step_of_releaseReset {rest : List HostAction} (hphase : s.phase ≠ .inReset)
    (hhost : s.host = .releaseReset :: rest) : step s = .next s.takeAction := by
  rw [step_eq_act, nextAction_of_cons hhost]
  exact act_releaseReset hphase

theorem takeAction_of_cons {rest : List HostAction} (h : s.host = a :: rest) : s.takeAction = { s with host := rest } := by
  simp [State.takeAction, h]

/-- Settles O51: each clause is read off the outcome of the command or of the host action. -/
theorem commandsLeaveTheRestUnchanged : Obligations.CommandsLeaveTheRestUnchanged := by
  refine ⟨fun i s t h => ?_, fun s hphase hhost => step_of_wait hphase hhost, fun s rest hphase hhost => ?_⟩
  · have ht := exec_next h
    exact ⟨ht.host_eq, ht.responses, ht.seeded_eq, fun h1 h2 => ht.phase_eq (not_or.mpr ⟨h1, h2⟩),
      ht.gen_eq_of_reading, ht.gen_of_drawsAtMostOnce⟩
  · rw [step_of_releaseReset hphase hhost, takeAction_of_cons hhost]

/-- A step that takes a SEED command runs it. -/
theorem step_of_acceptsSeed (h : s.AcceptsSeed) : ∃ seed, step s = execSeed seed s.takeAction := by
  obtain ⟨hphase, w, seed, rest, hhost, hdecode⟩ := h
  refine ⟨seed, ?_⟩
  rw [step_eq_act, nextAction_of_cons hhost, act, offerCommand_of_idle (s := s.takeAction) w hphase,
    runCommand_of_ok hdecode]
  rfl

/-- A step during which reset is asserted only enters reset (spec R190, R191). -/
theorem step_of_resetIsAsserted (h : s.ResetIsAsserted) : step s = .next s.takeAction.enterReset := by
  obtain ⟨rest, hhost | ⟨w, hhost⟩⟩ := h <;> rw [step_eq_act, nextAction_of_cons hhost] <;> rfl

theorem host_of_nextAction (ha : s.nextAction = a) (hwait : a ≠ .wait) : ∃ rest, s.host = a :: rest := by
  unfold State.nextAction at ha
  cases hhost : s.host with
  | nil => rw [hhost] at ha; exact absurd ha.symm hwait
  | cons b rest => rw [hhost] at ha; exact ⟨rest, by rw [← ha]; rfl⟩

theorem resetIsAsserted_of_nextAction
    (h : s.nextAction = .assertReset ∨ ∃ w, s.nextAction = .commandCutByReset w) : s.ResetIsAsserted := by
  rcases h with ha | ⟨w, ha⟩
  · obtain ⟨rest, hrest⟩ := host_of_nextAction ha nofun
    exact ⟨rest, .inl hrest⟩
  · obtain ⟨rest, hrest⟩ := host_of_nextAction ha nofun
    exact ⟨rest, .inr ⟨w, hrest⟩⟩

theorem eq_seed_of_mnemonic (h : i.mnemonic = .seed) : ∃ seed, i = .seed seed := by
  cases i with
  | seed value => exact ⟨value, rfl⟩
  | _ => simp [Instr.mnemonic] at h

theorem acceptsSeed_of_executed {w : CommandWord} (ha : s.nextAction = .command w) (hphase : s.phase = .idle)
    (hdecode : decode w = .ok i) (hi : i.mnemonic = .seed) : s.AcceptsSeed := by
  obtain ⟨rest, hrest⟩ := host_of_nextAction ha nofun
  obtain ⟨seed, rfl⟩ := eq_seed_of_mnemonic hi
  exact ⟨hphase, w, seed, rest, hrest, hdecode⟩

/-- A step that changes `SEEDED` took a SEED command or entered reset (spec R26). -/
theorem acceptsSeed_or_reset_of_seeded_ne (h : ActOutcome s.nextAction s.takeAction t) (hne : t.seeded ≠ s.seeded) :
    s.AcceptsSeed ∨ s.ResetIsAsserted := by
  cases h with
  | executed w i ha hphase hdecode ht =>
    by_cases hi : i.mnemonic = .seed
    · exact .inl (acceptsSeed_of_executed ha hphase hdecode hi)
    · exact absurd (ht.seeded_eq hi) hne
  | reset ha => exact .inr (resetIsAsserted_of_nextAction ha)
  | looped job _ ht => exact absurd ht.seeded_eq hne
  | unchanged | illegal | released => exact absurd rfl hne

/-- Settles O57: the steps named compute, and every other outcome leaves `SEEDED`. -/
theorem onlySeedAndResetWriteSeeded : Obligations.OnlySeedAndResetWriteSeeded := by
  intro s t h
  refine ⟨fun hseed => ?_, fun hreset => ?_, acceptsSeed_or_reset_of_seeded_ne (step_next h)⟩
  · obtain ⟨seed, hstep⟩ := step_of_acceptsSeed hseed
    obtain rfl := Host.Outcome.next.inj (hstep.symm.trans h)
    rfl
  · rw [step_of_resetIsAsserted hreset] at h
    cases h; rfl

end Sys2Proof.Machine
end

section
/-! Determinism: a command looks at neither port, so its effect is a function of `SEEDED`, `MT`, `IDX` and the phase. -/

namespace Sys2Proof.Machine

/-- What `c` makes of the architectural state, and the responses it adds, are the same whatever stands in the host's list
and in the earlier responses, neither of which it touches otherwise. -/
def IgnoresPorts (c : State → Host.Outcome State Fault Refusal) : Prop :=
  ∀ (seeded : Bool) (gen : GeneratorState) (phase : Phase),
    ∃ (b : Bool) (g : GeneratorState) (p : Phase) (new : List Response), ∀ host responses,
      c ⟨seeded, gen, phase, host, responses⟩ = .next ⟨b, g, p, host, responses ++ new⟩

variable {c c' : State → Host.Outcome State Fault Refusal}

theorem raise_ignoresPorts (e : EngineError) : IgnoresPorts (raise e) :=
  fun _ _ _ => ⟨_, _, _, _, fun _ _ => rfl⟩

theorem execSeed_ignoresPorts (value : Word) : IgnoresPorts (execSeed value) :=
  fun _ _ _ => ⟨_, _, _, _, fun _ _ => rfl⟩

theorem finish_ignoresPorts (data : GeneratorState → Word) : IgnoresPorts fun s => finish (data s.gen) s :=
  fun seeded gen phase => ⟨seeded, gen, phase, [⟨.ok, data gen⟩], fun _ _ => rfl⟩

theorem drawOnce_ignoresPorts (data : GeneratorState → Word) : IgnoresPorts (drawOnce data) :=
  fun seeded gen phase => ⟨seeded, (extractWord gen).2, phase, [⟨.ok, data gen⟩], fun _ _ => rfl⟩

theorem settleJob_ignoresPorts (job : BoundedJob) (result : GeneratorState → Option I32 × GeneratorState) :
    IgnoresPorts fun s => settleJob job (result s.gen) s := by
  intro seeded gen phase
  rcases hr : result gen with ⟨_ | val, g⟩
  · exact ⟨seeded, g, .drawing job, [], fun host responses => by simp [settleJob, hr]⟩
  · exact ⟨seeded, g, .idle, [⟨.ok, pack32 (add32 val job.offset)⟩], fun host responses => by
      simp [settleJob, hr, finish_eq]⟩

theorem runJob_ignoresPorts (job : BoundedJob) : IgnoresPorts (runJob job) :=
  settleJob_ignoresPorts job _

theorem IgnoresPorts.whenSeeded (h : IgnoresPorts c) : IgnoresPorts fun s => whenSeeded s (c s) := by
  intro seeded gen phase
  cases seeded with
  | true => exact h true gen phase
  | false => exact raise_ignoresPorts .unseeded false gen phase

theorem IgnoresPorts.ite {p : Prop} [Decidable p] (h : IgnoresPorts c) (h' : IgnoresPorts c') :
    IgnoresPorts fun s => if p then c s else c' s := by
  by_cases hp : p
  · simpa only [if_pos hp] using h
  · simpa only [if_neg hp] using h'

/-- No command looks at the ports (spec R31). -/
theorem exec_ignoresPorts (i : Instr) : IgnoresPorts (exec i) := by
  cases i with
  | seed value => exact execSeed_ignoresPorts value
  | getseed => exact (finish_ignoresPorts fun g => readWord g.mt 0).whenSeeded
  | extract => exact (drawOnce_ignoresPorts extractData).whenSeeded
  | randint bound => exact ((raise_ignoresPorts _).ite (runJob_ignoresPorts _)).whenSeeded
  | randrange min max =>
    exact ((raise_ignoresPorts _).ite ((raise_ignoresPorts _).ite (runJob_ignoresPorts _))).whenSeeded
  | uniform => exact (drawOnce_ignoresPorts uniformData).whenSeeded
  | randfloat bound => exact ((raise_ignoresPorts _).ite (drawOnce_ignoresPorts (randfloatData bound))).whenSeeded
  | randdouble bound => exact ((raise_ignoresPorts _).ite (drawOnce_ignoresPorts (randdoubleData bound))).whenSeeded
  | rdcur => exact (finish_ignoresPorts fun g => packCursor g.idx).whenSeeded
  | rdword index =>
    exact (finish_ignoresPorts fun g => readWord g.mt index.toNat).whenSeeded.ite (raise_ignoresPorts _)

/-- Settles O52: both states run the same function of `SEEDED`, `MT`, `IDX` and the phase. -/
theorem commandsDependOnTheArchitecturalStateAlone : Obligations.CommandsDependOnTheArchitecturalStateAlone := by
  rintro i ⟨seeded, gen, phase, host, responses⟩ ⟨_, _, _, host', responses'⟩ rfl rfl rfl
  obtain ⟨b, g, p, new, h⟩ := exec_ignoresPorts i seeded gen phase
  exact ⟨b, g, p, new, h host responses, h host' responses'⟩

end Sys2Proof.Machine
end

section
/-! An idle engine with a command word at its port: the step takes the word, and a legal one runs as the command it
decodes to. -/

namespace Sys2Proof.Machine

variable {s : State} {w : CommandWord} {rest : List HostAction}

/-- An idle engine accepts the word at its port (spec R60). -/
theorem step_of_idle_of_command (hphase : s.phase = .idle) (hhost : s.host = .command w :: rest) :
    step s = runCommand w { s with host := rest } := by
  rw [step_eq_act, nextAction_of_cons hhost, takeAction_of_cons hhost]
  exact offerCommand_of_idle w hphase

/-- Settles O9: the idle engine accepts the word, and a word that decodes runs its command. -/
theorem stepRunsTheDecodedCommand : Obligations.StepRunsTheDecodedCommand := by
  intro s w rest i hphase hhost hdecode
  rw [step_of_idle_of_command hphase hhost, runCommand_of_ok hdecode]

end Sys2Proof.Machine
end

section
/-! Command words: a word is its opcode and its operand field, the operand field is read by the form of the opcode's
row, and so decoding and encoding undo each other (spec R61 to R63, R66). -/

namespace Sys2Proof

variable {c : CommandWord} {i j : Instr} {m m' : Mnemonic} {op : Code} {arg : Word}

@[simp] theorem opField_encode (i : Instr) : opField (encode i) = i.mnemonic.opcode := opField_commandWord _ _

@[simp] theorem argField_encode (i : Instr) : argField (encode i) = i.arg := argField_commandWord _ _

theorem commandWord_inj {op' : Code} {arg' : Word} :
    commandWord op arg = commandWord op' arg' ↔ op = op' ∧ arg = arg' := by
  refine ⟨fun h => ⟨?_, ?_⟩, fun ⟨hop, harg⟩ => by rw [hop, harg]⟩
  · rw [← opField_commandWord op arg, h, opField_commandWord]
  · rw [← argField_commandWord op arg, h, argField_commandWord]

theorem mem_mnemonics (m : Mnemonic) : m ∈ Machine.mnemonics := by
  cases m <;> decide

theorem opcode_injective (h : m.opcode = m'.opcode) : m = m' :=
  have hdistinct : ∀ a ∈ Machine.mnemonics, ∀ b ∈ Machine.mnemonics, a.opcode = b.opcode → a = b := by decide
  hdistinct m (mem_mnemonics m) m' (mem_mnemonics m') h

/-! ## The parts of an operand field -/

@[simp] theorem argHigh_append (high low : BitVec 32) : argHigh (high ++ low) = high :=
  BitVec.extractLsb'_append_eq_left

@[simp] theorem argLow_append (high low : BitVec 32) : argLow (high ++ low) = low :=
  BitVec.extractLsb'_append_eq_right

@[simp] theorem argHigh_append_argLow (arg : Word) : argHigh arg ++ argLow arg = arg :=
  BitVec.extractLsb'_append_extractLsb' (w := 32) (len := 32)

@[simp] theorem argAboveIndex_append (above : BitVec 55) (index : BitVec 9) : argAboveIndex (above ++ index) = above :=
  BitVec.extractLsb'_append_eq_left

@[simp] theorem argIndex_append (above : BitVec 55) (index : BitVec 9) : argIndex (above ++ index) = index :=
  BitVec.extractLsb'_append_eq_right

@[simp] theorem argAboveIndex_append_argIndex (arg : Word) : argAboveIndex arg ++ argIndex arg = arg :=
  BitVec.extractLsb'_append_extractLsb' (w := 55) (len := 9)

/-- A 32-bit operand stands below 32 zeros (spec R62). -/
theorem setWidth_eq_halves (low : BitVec 32) : low.setWidth 64 = 0#32 ++ low := BitVec.setWidth_eq_append (by decide)

/-- An index stands below 55 zeros (spec R62). -/
theorem setWidth_eq_aboveIndex (index : BitVec 9) : index.setWidth 64 = 0#55 ++ index :=
  BitVec.setWidth_eq_append (by decide)

theorem setWidth_argLow (h : argHigh arg = 0#32) : (argLow arg).setWidth 64 = arg := by
  rw [setWidth_eq_halves, ← h, argHigh_append_argLow]

theorem setWidth_argIndex (h : argAboveIndex arg = 0#55) : (argIndex arg).setWidth 64 = arg := by
  rw [setWidth_eq_aboveIndex, ← h, argAboveIndex_append_argIndex]

/-! ## The operand forms -/

theorem formNone_eq_ok_iff : formNone op arg i = .ok j ↔ arg = 0#64 ∧ i = j := by
  unfold formNone; split <;> simp [*]

theorem formLow32_eq_ok_iff {make : BitVec 32 → Instr} :
    formLow32 op arg make = .ok i ↔ argHigh arg = 0#32 ∧ make (argLow arg) = i := by
  unfold formLow32; split <;> simp [*]

theorem formIndex_eq_ok_iff {make : BitVec 9 → Instr} : formIndex op arg make = .ok i ↔
    argAboveIndex arg = 0#55 ∧ (argIndex arg).toNat < Config.N ∧ make (argIndex arg) = i := by
  unfold formIndex; split
  · split <;> simp [*]
  · simp [*]

/-! ## The decoder row by row -/

/-- How the decoder reads the operand field of a word with the opcode of the row `m`. -/
def decodeRow (m : Mnemonic) (arg : Word) : Except Illegal Instr :=
  match m with
  | .seed => .ok (.seed arg)
  | .getseed => formNone m.opcode arg .getseed
  | .extract => formNone m.opcode arg .extract
  | .randint => formLow32 m.opcode arg .randint
  | .randrange => .ok (.randrange (argLow arg) (argHigh arg))
  | .uniform => formNone m.opcode arg .uniform
  | .randfloat => formLow32 m.opcode arg .randfloat
  | .randdouble => .ok (.randdouble arg)
  | .rdcur => formNone m.opcode arg .rdcur
  | .rdword => formIndex m.opcode arg .rdword

/-- A word with the opcode of a row is read as that row says (spec R62, R63). -/
theorem decode_of_opcode (h : opField c = m.opcode) : decode c = decodeRow m (argField c) := by
  unfold decode
  rw [h]
  cases m <;> rfl

/-- Case 1 of spec R66. -/
theorem decode_of_unknown (h : ∀ m : Mnemonic, opField c ≠ m.opcode) :
    decode c = .error (.unknownOpcode (opField c)) := by
  simp only [decode, h, if_false]

theorem decode_eq_ok_iff_row :
    decode c = .ok i ↔ ∃ m : Mnemonic, opField c = m.opcode ∧ decodeRow m (argField c) = .ok i := by
  refine ⟨fun h => ?_, fun ⟨m, hop, hrow⟩ => (decode_of_opcode hop).trans hrow⟩
  by_cases hop : ∃ m : Mnemonic, opField c = m.opcode
  · obtain ⟨m, hop⟩ := hop
    exact ⟨m, hop, decode_of_opcode hop ▸ h⟩
  · rw [decode_of_unknown fun m hm => hop ⟨m, hm⟩] at h
    exact nomatch h

/-- A row reads back the operand field of each of its well-formed commands. -/
theorem decodeRow_arg (h : i.WellFormed) : decodeRow i.mnemonic i.arg = .ok i := by
  cases i with
  | seed | getseed | extract | uniform | randdouble | rdcur => rfl
  | randint bound | randfloat bound =>
    exact formLow32_eq_ok_iff.mpr (by simp [Instr.arg, setWidth_eq_halves])
  | randrange min max => simp [decodeRow, Instr.mnemonic, Instr.arg]
  | rdword index =>
    have hindex : index.toNat < Config.N := of_decide_eq_true h
    exact formIndex_eq_ok_iff.mpr (by simp [Instr.arg, setWidth_eq_aboveIndex, hindex])

/-- What a row reads is a well-formed command of the row, with the operand field it was read from. -/
theorem eq_of_decodeRow (h : decodeRow m arg = .ok i) : i.mnemonic = m ∧ i.WellFormed ∧ i.arg = arg := by
  cases m with
  | seed | randdouble => cases h; exact ⟨rfl, rfl, rfl⟩
  | randrange => cases h; exact ⟨rfl, rfl, argHigh_append_argLow arg⟩
  | getseed | extract | uniform | rdcur =>
    obtain ⟨rfl, rfl⟩ := formNone_eq_ok_iff.mp h
    exact ⟨rfl, rfl, rfl⟩
  | randint | randfloat =>
    obtain ⟨hhigh, rfl⟩ := formLow32_eq_ok_iff.mp h
    exact ⟨rfl, rfl, setWidth_argLow hhigh⟩
  | rdword =>
    obtain ⟨habove, hindex, rfl⟩ := formIndex_eq_ok_iff.mp h
    exact ⟨rfl, decide_eq_true hindex, setWidth_argIndex habove⟩

/-- Decoding and encoding are inverse on legal words and well-formed commands. -/
theorem decode_eq_ok_iff : decode c = .ok i ↔ i.WellFormed ∧ encode i = c := by
  constructor
  · intro h
    obtain ⟨m, hop, hrow⟩ := decode_eq_ok_iff_row.mp h
    obtain ⟨rfl, hwf, harg⟩ := eq_of_decodeRow hrow
    exact ⟨hwf, by rw [encode, ← hop, harg, commandWord_fields]⟩
  · rintro ⟨hwf, rfl⟩
    exact decode_eq_ok_iff_row.mpr ⟨i.mnemonic, opField_encode i, (argField_encode i).symm ▸ decodeRow_arg hwf⟩

theorem opField_of_decode (h : decode c = .ok i) : opField c = i.mnemonic.opcode := by
  obtain ⟨-, rfl⟩ := decode_eq_ok_iff.mp h
  exact opField_encode i

/-- Settles O1: each row reads back the operand field its commands write. -/
theorem decodeOfEncodeIsTheCommand : Obligations.DecodeOfEncodeIsTheCommand :=
  fun _ hwf => decode_eq_ok_iff.mpr ⟨hwf, rfl⟩

/-- Settles O2: a row reads only well-formed commands, and their operand field is the one read. -/
theorem legalWordIsTheEncodingOfItsCommand : Obligations.LegalWordIsTheEncodingOfItsCommand :=
  fun _ _ => decode_eq_ok_iff.mp

/-! ## The printed opcode map -/

/-- The operand bits that are 0 in every word of the row (spec R62). -/
def Mnemonic.reserved : Mnemonic → Word
  | .seed | .randrange | .randdouble => 0#64
  | .getseed | .extract | .uniform | .rdcur => BitVec.allOnes 64
  | .randint | .randfloat => BitVec.allOnes 32 ++ 0#32
  | .rdword => BitVec.allOnes 55 ++ 0#9

/-- The row of the opcode map, from its opcode and its reserved operand bits. -/
def Mnemonic.row (m : Mnemonic) : OpcodeRow := ⟨m, commandWord m.opcode 0#64, commandWord 0xFF#8 m.reserved⟩

theorem mem_opcodeMap_iff {r : OpcodeRow} : r ∈ opcodeMap ↔ ∃ m : Mnemonic, m.row = r := by
  have hmap : opcodeMap = Machine.mnemonics.map Mnemonic.row := by decide
  simp [hmap, mem_mnemonics]

/-- A word has the fixed bits of a row exactly if it has its opcode and none of its reserved bits. -/
theorem row_matches_iff : m.row.Matches c ↔ opField c = m.opcode ∧ argField c &&& m.reserved = 0#64 := by
  have hand : c &&& m.row.mask = commandWord (opField c &&& 0xFF#8) (argField c &&& m.reserved) := by
    conv_lhs => rw [← commandWord_fields c]
    exact BitVec.and_append
  have hones : opField c &&& 0xFF#8 = opField c := BitVec.and_allOnes
  rw [OpcodeRow.Matches, hand, hones]
  exact commandWord_inj

/-- A word that ends in `k` free bits has none of the bits above them exactly if that part is 0. -/
theorem and_high_eq_zero_iff {n k : Nat} (x : BitVec (n + k)) :
    x &&& (BitVec.allOnes n ++ 0#k) = 0#(n + k) ↔ x.extractLsb' k n = 0#n := by
  conv_lhs => rw [← BitVec.extractLsb'_append_extractLsb' (x := x), BitVec.and_append, BitVec.and_allOnes,
    BitVec.and_zero, ← BitVec.zero_append_zero, BitVec.append_left_inj]

/-- A row reads every operand field without reserved bits, of RDWORD those with an index of at most 311 (spec R63). -/
theorem exists_decodeRow_iff : (∃ i, decodeRow m arg = .ok i) ↔
    arg &&& m.reserved = 0#64 ∧ (m = .rdword → (argIndex arg).toNat ≤ 311) := by
  cases m with
  | seed | randrange | randdouble => simp [decodeRow, Mnemonic.reserved]
  | getseed | extract | uniform | rdcur =>
    have hall : arg &&& BitVec.allOnes 64 = arg := BitVec.and_allOnes
    simp only [decodeRow, Mnemonic.reserved, formNone_eq_ok_iff, hall]
    simp
  | randint | randfloat =>
    have hhigh : arg &&& (BitVec.allOnes 32 ++ 0#32) = 0#64 ↔ argHigh arg = 0#32 :=
      and_high_eq_zero_iff (n := 32) (k := 32) arg
    simp only [decodeRow, Mnemonic.reserved, formLow32_eq_ok_iff, hhigh]
    simp
  | rdword =>
    have habove : arg &&& Mnemonic.reserved .rdword = 0#64 ↔ argAboveIndex arg = 0#55 :=
      and_high_eq_zero_iff (n := 55) (k := 9) arg
    simp [decodeRow, formIndex_eq_ok_iff, habove, Nat.lt_succ_iff]

/-- A word is legal exactly if it matches a row and, for RDWORD, its index is in range. -/
theorem exists_decode_iff : (∃ i, decode c = .ok i) ↔
    ∃ m : Mnemonic, m.row.Matches c ∧ (m = .rdword → (argIndex (argField c)).toNat ≤ 311) := by
  simp only [decode_eq_ok_iff_row, row_matches_iff, and_assoc, ← exists_decodeRow_iff]
  exact ⟨fun ⟨i, m, hop, hrow⟩ => ⟨m, hop, i, hrow⟩, fun ⟨m, hop, i, hrow⟩ => ⟨i, m, hop, hrow⟩⟩

theorem row_matches_of_decode (h : decode c = .ok i) : i.mnemonic.row.Matches c := by
  obtain ⟨m, hop, hrow⟩ := decode_eq_ok_iff_row.mp h
  obtain ⟨rfl, -, -⟩ := eq_of_decodeRow hrow
  exact row_matches_iff.mpr ⟨hop, (exists_decodeRow_iff.mp ⟨i, hrow⟩).1⟩

/-- Settles O3: the rows as printed are those the decoder reads by. -/
theorem decodingFollowsTheOpcodeMap : Obligations.DecodingFollowsTheOpcodeMap := by
  refine ⟨fun c => ?_,
    fun c i h => ⟨i.mnemonic.row, mem_opcodeMap_iff.mpr ⟨_, rfl⟩, rfl, row_matches_of_decode h⟩⟩
  rw [exists_decode_iff]
  constructor
  · rintro ⟨m, hmatch, hindex⟩
    exact ⟨m.row, mem_opcodeMap_iff.mpr ⟨m, rfl⟩, hmatch, hindex⟩
  · rintro ⟨row, hrow, hmatch, hindex⟩
    obtain ⟨m, rfl⟩ := mem_opcodeMap_iff.mp hrow
    exact ⟨m, hmatch, hindex⟩

/-- Settles O4: a row fixes the whole opcode, and no two rows have the same. -/
theorem opcodeRowsAreDisjoint : Obligations.OpcodeRowsAreDisjoint := by
  intro c r hr r' hr' hmatch hmatch'
  obtain ⟨m, rfl⟩ := mem_opcodeMap_iff.mp hr
  obtain ⟨m', rfl⟩ := mem_opcodeMap_iff.mp hr'
  have hop := (row_matches_iff.mp hmatch).1
  have hop' := (row_matches_iff.mp hmatch').1
  rw [opcode_injective (hop.symm.trans hop')]

/-- Settles O5: the decoder computes on each printed word. -/
theorem printedCommandWordsDecode : Obligations.PrintedCommandWordsDecode := by
  refine ⟨?_, ?_, ?_, ?_, ?_, ?_, ?_, ?_, ?_, ?_⟩ <;> decide

end Sys2Proof
end

section
/-! Script lines: an operand written from a bit pattern is read back as that pattern, so a command's line assembles to
the command (spec R69, R70). -/

namespace Sys2Proof.Machine

variable {i : Instr}

theorem asU64_toNat (value : Word) : asU64 value.toNat = some value := by
  simp [asU64, value.isLt]

theorem asI32_toInt (v : I32) : asI32 v.toInt = some v := by
  rw [asI32, if_pos ⟨BitVec.le_toInt v, BitVec.toInt_lt⟩, BitVec.ofInt_toInt]

theorem asIndex_toNat {index : BitVec 9} (h : index.toNat < Config.N) : asIndex index.toNat = some index := by
  simp [asIndex, h]

theorem asFloat_bits (f : FloatFormat) {pattern : Nat} (h : pattern < 2 * f.signWeight) :
    asFloat f (.bits pattern) = some pattern := by
  simp [asFloat, h]

/-- A well-formed command's operands, as its line writes them, spell the command (spec R69). -/
theorem assemble_scriptOperands (h : i.WellFormed) : assemble i.mnemonic (scriptOperands i) = some i := by
  cases i with
  | getseed | extract | uniform | rdcur => rfl
  | seed value => simp [Instr.mnemonic, scriptOperands, assemble, asU64_toNat]
  | randint bound => simp [Instr.mnemonic, scriptOperands, assemble, asI32_toInt]
  | randrange min max => simp [Instr.mnemonic, scriptOperands, assemble, asI32_toInt]
  | randfloat bound => simp [Instr.mnemonic, scriptOperands, assemble, asFloat_bits binary32 bound.isLt]
  | randdouble bound => simp [Instr.mnemonic, scriptOperands, assemble, asFloat_bits binary64 bound.isLt]
  | rdword index =>
    simp [Instr.mnemonic, scriptOperands, assemble, asIndex_toNat (of_decide_eq_true h)]

/-- Settles O7: the line's operands spell the command, which is then presented as its word. -/
theorem scriptLineSpellsItsCommand : Obligations.ScriptLineSpellsItsCommand := by
  intro i hwf
  simp [scriptLine, ScriptRequest.actions, assemble_scriptOperands hwf]

/-- Settles O8: the expansions are those of `ScriptRequest.actions`. -/
theorem pseudoCommandsExpand : Obligations.PseudoCommandsExpand :=
  ⟨fun _ => rfl, rfl, rfl⟩

end Sys2Proof.Machine
end

section
/-! Response words: as a command word is its opcode and operand field, a response word is its status code and data (spec
R64, R65). -/

namespace Sys2Proof.Machine

theorem statusCode_injective {a b : Status} (h : a.code = b.code) : a = b := by
  cases a <;> cases b <;> simp [Status.code] at h ⊢

theorem responseWord_injective {r r' : Response} (h : r.word = r'.word) : r = r' := by
  obtain ⟨hcode, hdata⟩ := commandWord_inj.mp h
  cases r; cases r'
  simpa using ⟨statusCode_injective hcode, hdata⟩

/-- Settles O6: status code and data stand where opcode and operand field do. -/
theorem responseWordHoldsStatusAndData : Obligations.ResponseWordHoldsStatusAndData :=
  ⟨fun r => ⟨opField_commandWord r.status.code r.data, argField_commandWord r.status.code r.data⟩,
    fun _ _ => responseWord_injective, rfl, rfl, rfl, rfl⟩

end Sys2Proof.Machine
end

section
/-! Argument checks: what the commands test are the cases of spec R166, in exact integers and on bit patterns. -/

namespace Sys2Proof.Machine

section
variable (f : FloatFormat) {bits : Nat}

theorem FloatFormat.signWeight_eq_mul : f.signWeight = 2 ^ f.fracBits * 2 ^ f.expBits := by
  rw [FloatFormat.signWeight, pow_add, Nat.mul_comm]

theorem FloatFormat.expMax_add_one : f.expMax + 1 = 2 ^ f.expBits := Nat.sub_add_cancel Nat.one_le_two_pow

theorem FloatFormat.signWeight_eq_add : f.signWeight = f.infinityBits + 2 ^ f.fracBits := by
  rw [f.signWeight_eq_mul, ← f.expMax_add_one, FloatFormat.infinityBits, Nat.mul_add, Nat.mul_one, Nat.mul_comm]

/-- The sign bit is the top one. -/
theorem FloatFormat.sign_iff (hbits : bits < 2 * f.signWeight) :
    bits / f.signWeight % 2 = 1 ↔ f.signWeight ≤ bits := by
  have hweight : 0 < f.signWeight := Nat.two_pow_pos _
  have hlt : bits / f.signWeight < 2 := (Nat.div_lt_iff_lt_mul hweight).mpr hbits
  have hle : 1 ≤ bits / f.signWeight ↔ f.signWeight ≤ bits := by
    rw [Nat.le_div_iff_mul_le hweight, Nat.one_mul]
  rw [← hle]
  generalize bits / f.signWeight = q at hlt
  omega

/-- A bit pattern is its exponent and fraction fields and, above them, its sign bit. -/
theorem FloatFormat.bits_eq_fields (hbits : bits < 2 * f.signWeight) :
    bits = 2 ^ f.fracBits * f.expField bits + f.fracField bits ∨
      bits = f.signWeight + (2 ^ f.fracBits * f.expField bits + f.fracField bits) := by
  have hsplit : 2 ^ f.fracBits * f.expField bits + f.fracField bits = bits % f.signWeight := by
    rw [f.signWeight_eq_mul, Nat.mod_mul, Nat.add_comm]; rfl
  rw [hsplit]
  by_cases hlt : bits < f.signWeight
  · exact .inl (Nat.mod_eq_of_lt hlt).symm
  · rw [Nat.mod_eq_sub_mod (Nat.le_of_not_lt hlt), Nat.mod_eq_of_lt (by omega)]
    omega

/-- The comparison with 0 on bit patterns: true of `+0.0` and of every pattern from `-0.0` to `-infinity` (spec
R141). -/
theorem FloatFormat.value_nonPositive_iff (hexp : 0 < f.expBits) (hbits : bits < 2 * f.signWeight) :
    (f.value bits).nonPositive = true ↔
      bits = 0 ∨ (f.signWeight ≤ bits ∧ bits ≤ f.signWeight + f.infinityBits) := by
  have hfields := f.bits_eq_fields hbits
  have hweight := f.signWeight_eq_add
  have hmax := f.expMax_add_one
  have hpos : 0 < f.expMax := by
    have := Nat.le_self_pow (Nat.ne_of_gt hexp) 2
    omega
  have hunit : 2 ^ f.fracBits ≤ f.infinityBits := Nat.le_mul_of_pos_left _ hpos
  have hfrac : f.fracField bits < 2 ^ f.fracBits := Nat.mod_lt _ (by positivity)
  have hfield : f.expField bits < 2 ^ f.expBits := Nat.mod_lt _ (by positivity)
  unfold FloatFormat.value
  dsimp only
  split
  · next hones =>
    have hplace : 2 ^ f.fracBits * f.expField bits = f.infinityBits := by
      rw [hones, FloatFormat.infinityBits, Nat.mul_comm]
    split
    · simp only [FloatValue.nonPositive, decide_eq_true_eq, f.sign_iff hbits]; omega
    · simp only [FloatValue.nonPositive, Bool.false_eq_true, false_iff]; omega
  · next hnotOnes =>
    split
    · next hzero =>
      rw [hzero] at hfields
      simp only [FloatValue.nonPositive, Bool.or_eq_true, decide_eq_true_eq, f.sign_iff hbits]; omega
    · next hnotZero =>
      have hlow : 2 ^ f.fracBits ≤ 2 ^ f.fracBits * f.expField bits := Nat.le_mul_of_pos_right _ (by omega)
      have hhigh : 2 ^ f.fracBits * f.expField bits + 2 ^ f.fracBits ≤ f.infinityBits := by
        rw [← Nat.mul_succ, FloatFormat.infinityBits, Nat.mul_comm]
        exact Nat.mul_le_mul_right _ (by omega)
      have hnum : (2 ^ f.fracBits + f.fracField bits) * 2 ^ (f.expField bits - 1) ≠ 0 := by positivity
      simp only [FloatValue.nonPositive, Bool.or_eq_true, decide_eq_true_eq, or_iff_left hnum, f.sign_iff hbits]; omega

end

theorem nonPositive64_iff (bound : F64) : nonPositive64 bound = true ↔ ArgumentCheckFails (.randdouble bound) := by
  rw [nonPositive64, value64, binary64.value_nonPositive_iff (by decide) bound.isLt]
  simp only [ArgumentCheckFails, BitVec.le_def, ← BitVec.toNat_inj]
  rfl

theorem nonPositiveF32_iff (bound : F32) : nonPositiveF32 bound = true ↔ ArgumentCheckFails (.randfloat bound) := by
  rw [nonPositiveF32, value32, binary32.value_nonPositive_iff (by decide) bound.isLt]
  simp only [ArgumentCheckFails, BitVec.le_def, ← BitVec.toNat_inj]
  rfl

theorem nonPositive32_iff (bound : I32) : nonPositive32 bound = true ↔ bound.toInt ≤ 0 := decide_eq_true_iff

theorem emptyRange32_iff (min max : I32) : emptyRange32 min max = true ↔ max.toInt ≤ min.toInt := decide_eq_true_iff

/-- The two checks of RANDRANGE together reject the ranges that are empty or do not fit (spec R123, R124). -/
theorem emptyRange32_or_nonPositive32_iff (min max : I32) :
    (emptyRange32 min max || nonPositive32 (sub32 max min)) = true ↔ ArgumentCheckFails (.randrange min max) := by
  have hmin := BitVec.le_toInt min
  have hmax := BitVec.toInt_lt (x := max)
  rw [Bool.or_eq_true, emptyRange32_iff, nonPositive32_iff, sub32, BitVec.toInt_sub, Int.bmod, ArgumentCheckFails]
  omega

/-- The argument check a command makes on a seeded engine. -/
def argumentCheck : Instr → Bool
  | .randint bound => nonPositive32 bound
  | .randrange min max => emptyRange32 min max || nonPositive32 (sub32 max min)
  | .randfloat bound => nonPositiveF32 bound
  | .randdouble bound => nonPositive64 bound
  | .seed _ | .getseed | .extract | .uniform | .rdcur | .rdword _ => false

/-- The check made is the one spec R166 lists. -/
theorem argumentCheck_iff (i : Instr) : argumentCheck i = true ↔ ArgumentCheckFails i := by
  cases i with
  | randint bound => exact nonPositive32_iff bound
  | randrange min max => exact emptyRange32_or_nonPositive32_iff min max
  | randfloat bound => exact nonPositiveF32_iff bound
  | randdouble bound => exact nonPositive64_iff bound
  | seed | getseed | extract | uniform | rdcur | rdword => exact Bool.false_eq_true.to_iff

end Sys2Proof.Machine
end

section
/-! The order of the checks: a command's execution stands behind its argument check, and that behind the gate for
unseeded engines (spec R67, R171). -/

namespace Sys2Proof.Machine

variable {i : Instr} {s : State}

/-- What a command does once it has passed every check. -/
def execChecked (i : Instr) (s : State) : Host.Outcome State Fault Refusal :=
  match i with
  | .seed value => execSeed value s
  | .getseed => finish (readWord s.gen.mt 0) s
  | .extract => drawOnce extractData s
  | .randint bound => runJob ⟨bound, 0#32⟩ s
  | .randrange min max => runJob ⟨sub32 max min, min⟩ s
  | .uniform => drawOnce uniformData s
  | .randfloat bound => drawOnce (randfloatData bound) s
  | .randdouble bound => drawOnce (randdoubleData bound) s
  | .rdcur => finish (packCursor s.gen.idx) s
  | .rdword index => finish (readWord s.gen.mt index.toNat) s

/-- Unseeded first, then the argument check, then execution (spec R67 steps 2 to 4). -/
theorem exec_eq_checks (hwf : i.WellFormed) (hi : i.mnemonic ≠ .seed) (s : State) : exec i s =
    whenSeeded s (if argumentCheck i then raise .invalidArgument s else execChecked i s) := by
  cases i with
  | seed value => exact absurd rfl hi
  | randrange min max =>
    rw [exec_randrange, argumentCheck]
    cases emptyRange32 min max <;> rfl
  | rdword index =>
    rw [exec_rdword, if_pos (of_decide_eq_true hwf)]
    rfl
  | getseed | extract | randint | uniform | randfloat | randdouble | rdcur => rfl

theorem exec_of_unseeded_of_wellFormed (hwf : i.WellFormed) (hi : i.mnemonic ≠ .seed) (hs : s.seeded = false) :
    exec i s = raise .unseeded s := by
  rw [exec_eq_checks hwf hi, whenSeeded_of_unseeded _ hs]

theorem exec_of_argumentCheckFails (hwf : i.WellFormed) (hs : s.seeded = true) (h : ArgumentCheckFails i) :
    exec i s = raise .invalidArgument s := by
  have hi : i.mnemonic ≠ .seed := fun hi => by
    obtain ⟨seed, rfl⟩ := eq_seed_of_mnemonic hi
    exact h
  rw [exec_eq_checks hwf hi, whenSeeded_of_seeded _ hs, if_pos ((argumentCheck_iff i).mpr h)]

theorem exec_of_checked (hwf : i.WellFormed) (hs : i.mnemonic = .seed ∨ s.seeded = true)
    (h : ¬ ArgumentCheckFails i) : exec i s = execChecked i s := by
  by_cases hi : i.mnemonic = .seed
  · obtain ⟨seed, rfl⟩ := eq_seed_of_mnemonic hi
    rfl
  · rw [exec_eq_checks hwf hi, whenSeeded_of_seeded _ (hs.resolve_left hi), if_neg (mt (argumentCheck_iff i).mp h)]

/-- `o` is an idle engine that has answered `s` with OK, or one in the loop of the bounded-integer command `i` that has
not answered. -/
def AnswersOkOrDraws (i : Instr) (s : State) (o : Host.Outcome State Fault Refusal) : Prop :=
  ∃ t, o = .next t ∧ ((t.phase = .idle ∧ ∃ d, t.responses = s.responses ++ [⟨.ok, d⟩]) ∨
    (RunsTheLoop i ∧ (∃ job, t.phase = .drawing job) ∧ t.responses = s.responses))

theorem finish_answersOk {u : State} (d : Word) (hphase : u.phase = .idle) (hresponses : u.responses = s.responses) :
    AnswersOkOrDraws i s (finish d u) :=
  ⟨_, rfl, .inl ⟨hphase, d, by rw [respond_responses, hresponses]⟩⟩

theorem runJob_answersOkOrDraws (job : BoundedJob) (hi : RunsTheLoop i) : AnswersOkOrDraws i s (runJob job s) := by
  obtain ⟨t, ht⟩ : ∃ t, runJob job s = .next t := settleJob_steps _ _ _
  refine ⟨t, ht, ?_⟩
  rcases settleJob_next ht with ⟨val, -, rfl⟩ | ⟨-, rfl⟩
  · exact .inl ⟨rfl, _, rfl⟩
  · exact .inr ⟨hi, ⟨job, rfl⟩, rfl⟩

theorem execChecked_answersOkOrDraws (i : Instr) (hphase : s.phase = .idle) :
    AnswersOkOrDraws i s (execChecked i s) := by
  cases i with
  | randint => exact runJob_answersOkOrDraws _ (.inl rfl)
  | randrange => exact runJob_answersOkOrDraws _ (.inr rfl)
  | seed | getseed | extract | uniform | randfloat | randdouble | rdcur | rdword =>
    exact finish_answersOk _ hphase rfl

theorem runCommand_of_error {w : CommandWord} {e : Illegal} (h : decode w = .error e) (s : State) :
    runCommand w s = raise .illegalCommand s := by
  simp [runCommand, h]

/-- Settles O12: the port's check is the decoder's, and `exec_eq_checks` orders the others behind it. -/
theorem statusFollowsTheOrderOfChecks : Obligations.StatusFollowsTheOrderOfChecks := by
  intro s w rest hphase hhost
  have hstep := step_of_idle_of_command hphase hhost
  have hwf {i : Instr} (hdecode : decode w = .ok i) : i.WellFormed := (decode_eq_ok_iff.mp hdecode).1
  refine ⟨fun e hdecode => ?_, fun i hdecode hi hs => ?_, fun i hdecode hs hfails => ?_,
    fun i hdecode hs hpasses => ?_⟩
  · rw [hstep, runCommand_of_error hdecode]
    rfl
  · rw [hstep, runCommand_of_ok hdecode]
    exact exec_of_unseeded_of_wellFormed (s := { s with host := rest }) (hwf hdecode) hi hs
  · rw [hstep, runCommand_of_ok hdecode]
    exact exec_of_argumentCheckFails (s := { s with host := rest }) (hwf hdecode) hs hfails
  · rw [hstep, runCommand_of_ok hdecode, exec_of_checked (s := { s with host := rest }) (hwf hdecode) hs hpasses]
    exact execChecked_answersOkOrDraws i hphase

end Sys2Proof.Machine
end

section
/-! Progress and responses: every command and every step answers a next state, and an accepted command gives one
response unless it is left in its loop (spec R60, R165). -/

namespace Sys2Proof.Machine

variable {i : Instr} {s t : State} {w : CommandWord}

theorem exec_steps (i : Instr) (s : State) : ∃ t, exec i s = .next t := by
  obtain ⟨b, g, p, new, h⟩ := exec_ignoresPorts i s.seeded s.gen s.phase
  exact ⟨_, h s.host s.responses⟩

theorem goOn_steps (s : State) : ∃ t, goOn s = .next t := by
  unfold goOn; split
  · exact ⟨s, rfl⟩
  · exact ⟨s, rfl⟩
  · exact settleJob_steps _ _ s

theorem runCommand_steps (w : CommandWord) (s : State) : ∃ t, runCommand w s = .next t := by
  unfold runCommand; split
  · exact ⟨_, rfl⟩
  · exact exec_steps _ s

theorem act_steps (a : HostAction) (s : State) : ∃ t, act a s = .next t := by
  cases a with
  | wait => exact goOn_steps s
  | command w =>
    by_cases hphase : s.phase = .idle
    · rw [act, offerCommand_of_idle w hphase]
      exact runCommand_steps w s
    · rw [act, offerCommand_of_not_idle w hphase]
      exact goOn_steps s
  | commandCutByReset | assertReset | releaseReset => exact ⟨_, rfl⟩

/-- Settles O49: commands, loops and the reset input all answer next states. -/
theorem everyStepAnswersANextState : Obligations.EveryStepAnswersANextState := by
  refine ⟨fun s => ?_, exec_steps⟩
  rw [State.StepsOn, step_eq_act]
  exact act_steps _ _

/-- A command run on an idle engine has given one response and left it idle, or it is in its loop and has given none. -/
theorem ExecOutcome.idle_or_drawing (h : ExecOutcome i s t) (hphase : s.phase = .idle) :
    (t.phase = .idle ∧ ∃ r, t.responses = s.responses ++ [r]) ∨
      (RunsTheLoop i ∧ (∃ job, t.phase = .drawing job) ∧ t.responses = s.responses) := by
  cases h with
  | seeded _ r | answered r | drew r => exact .inl ⟨hphase, r, rfl⟩
  | looped job hi _ _ ht =>
    cases ht with
    | answered d r => exact .inl ⟨rfl, r, rfl⟩
    | stillDrawing d => exact .inr ⟨hi, ⟨job, rfl⟩, rfl⟩

theorem opField_of_runsTheLoop (hdecode : decode w = .ok i) (hi : RunsTheLoop i) :
    opField w = 0x20#8 ∨ opField w = 0x21#8 := by
  rw [opField_of_decode hdecode]
  rcases hi with hi | hi <;> rw [hi]
  · exact .inl rfl
  · exact .inr rfl

/-- Settles O13: an illegal word is answered, and a legal one runs to one of the outcomes of its command. -/
theorem oneResponseForEachAcceptedCommand : Obligations.OneResponseForEachAcceptedCommand := by
  intro s w rest hphase hhost
  rw [step_of_idle_of_command hphase hhost]
  cases hdecode : decode w with
  | error e => exact ⟨_, runCommand_of_error hdecode _, rfl, .inl ⟨hphase, _, rfl⟩⟩
  | ok i =>
    obtain ⟨t, ht⟩ := exec_steps i { s with host := rest }
    have hout := exec_next ht
    refine ⟨t, (runCommand_of_ok hdecode _).trans ht, hout.host_eq, ?_⟩
    rcases hout.idle_or_drawing hphase with hidle | ⟨hi, hdrawing⟩
    · exact .inl hidle
    · exact .inr ⟨opField_of_runsTheLoop hdecode hi, hdrawing⟩

end Sys2Proof.Machine
end

section
/-! Placing a command: the opcode table's numbering of a command word is the word itself (spec R42). -/

namespace Sys2Proof.Machine

theorem tableWord_toNat (w : CommandWord) : tableWord 72 w.toNat = w := by
  rw [tableWord, Nat.mod_eq_of_lt w.isLt, BitVec.ofNat_toNat, BitVec.setWidth_eq]

/-- Settles O10: the placed word is the encoding, which decodes to the command, and the engine is made idle. -/
theorem fetchedWordRunsItsCommand : Obligations.FetchedWordRunsItsCommand := by
  intro s i hwf
  have hdecode : decode (tableWord 72 (encode i).toNat) = .ok i := by
    rw [tableWord_toNat]
    exact decode_eq_ok_iff.mpr ⟨hwf, rfl⟩
  refine ⟨by rw [decodeTableWord, hdecode], ?_⟩
  exact stepRunsTheDecodedCommand (s.withFetchWord 72 (encode i).toNat) _ s.host i rfl rfl hdecode

end Sys2Proof.Machine
end

section
/-! Seeding: the words of the seeded array, and what SEED makes of a state (spec R80 to R82). -/

namespace Sys2Proof.Machine

theorem exec_seed (seed : Word) (s : State) : exec (.seed seed) s =
    .next { s with seeded := true, gen := initializeFrom seed, responses := s.responses ++ [⟨.ok, 0#64⟩] } := rfl

/-- Each pass of the seeding loop reads the word that the pass before it wrote (spec R81). -/
theorem seedWords_getElem_succ (p : Word) (i n j : Nat) (h : j < n) :
    (p :: seedWords p i n)[j + 1]'(by simpa [seedWords_length] using h) =
      seedNext ((p :: seedWords p i n)[j]'(by simpa [seedWords_length] using h.le)) (i + j) := by
  induction j generalizing p i n with
  | zero =>
    obtain ⟨n, rfl⟩ := Nat.exists_eq_add_one_of_ne_zero h.ne'
    rfl
  | succ j ih =>
    obtain ⟨n, rfl⟩ := Nat.exists_eq_add_one_of_ne_zero (Nat.ne_zero_of_lt h)
    have hnext := ih (seedNext p i) (i + 1) n (Nat.lt_of_succ_lt_succ h)
    rwa [Nat.add_right_comm, Nat.add_assoc i] at hnext

@[simp] theorem readWord_seedArray_zero (seed : Word) : readWord (seedArray seed) 0 = seed := rfl

theorem readWord_seedArray_succ (seed : Word) {j : Nat} (h : j < Config.N - 1) :
    readWord (seedArray seed) (j + 1) = seedNext (readWord (seedArray seed) j) (j + 1) := by
  have hpass := seedWords_getElem_succ seed 1 (Config.N - 1) j h
  rw [Nat.add_comm 1 j] at hpass
  rw [readWord_eq_getElem _ _ (Nat.add_lt_of_lt_sub h), readWord_eq_getElem _ _ (Nat.lt_of_lt_pred h)]
  exact hpass

/-- Settles O18: SEED leaves `initializeFrom seed`, whose words the passes of the loop give one by one. -/
theorem seedFillsTheArrayByTheRecurrence : Obligations.SeedFillsTheArrayByTheRecurrence := by
  intro seed s
  refine ⟨initializeFrom seed, exec_seed seed s, rfl, readWord_seedArray_zero seed, fun i hpos hle => ?_⟩
  obtain ⟨j, rfl⟩ := Nat.exists_eq_add_of_le' hpos
  exact readWord_seedArray_succ seed hle

theorem seedArray_injective : Function.Injective seedArray := fun seed seed' h => by
  rw [← readWord_seedArray_zero seed, h, readWord_seedArray_zero]

/-- Seed 0 gives `MT[1] = 1`, and any other seed stands in `MT[0]` itself (spec R82). -/
theorem exists_readWord_seedArray_ne_zero (seed : Word) : ∃ i < Config.N, readWord (seedArray seed) i ≠ 0#64 := by
  by_cases hseed : seed = 0#64
  · refine ⟨1, by decide, ?_⟩
    rw [readWord_seedArray_succ seed (by decide), readWord_seedArray_zero, hseed]
    decide
  · exact ⟨0, by decide, hseed⟩

/-- Settles O19: nothing of the old `SEEDED`, `MT` and `IDX` is in the state SEED answers, `MT[0]` tells two seeds apart,
and `MT[0]` or `MT[1]` is not 0. -/
theorem seededStateDependsOnTheSeedAlone : Obligations.SeededStateDependsOnTheSeedAlone := by
  refine ⟨fun seed s s' hphase hhost hresponses => ?_, fun _ _ => seedArray_injective.ne,
    exists_readWord_seedArray_ne_zero⟩
  rw [exec_seed, exec_seed, hphase, hhost, hresponses]

end Sys2Proof.Machine
end

section
/-! The twist: the bits one step mixes, and the words the whole loop leaves (spec R91 to R95). -/

namespace Sys2Proof.Machine

/-- The value `x` of a twist step: the upper part of `u = MT[i]` joined to the lower part of `l = MT[(i+1) mod 312]`
(spec R91, R95). -/
def twistJoin (u l : Word) : Word := (u &&& Config.upperMask) ||| (l &&& Config.lowerMask)

theorem twistMix_eq_twistJoin (u l : Word) : twistMix u l =
    if (twistJoin u l).getLsbD 0 then (twistJoin u l >>> 1) ^^^ Config.matrixA else twistJoin u l >>> 1 := rfl

theorem getLsbD_upperMask {k : Nat} (h : k < 64) : Config.upperMask.getLsbD k = decide (k = 63) := by
  have hmask : Config.upperMask = BitVec.twoPow 64 63 := by decide
  simp [hmask, h]

theorem getLsbD_lowerMask {k : Nat} (h : k < 64) : Config.lowerMask.getLsbD k = decide (k < 31) := by
  have hmask : Config.lowerMask = BitVec.ofNat 64 (2 ^ 31 - 1) := by decide
  rw [hmask, BitVec.getLsbD_ofNat, Nat.testBit_two_pow_sub_one, decide_eq_true h, Bool.true_and]

/-- `x` is `u[63]` in bit 63, `l[30:0]` in bits 30..0, and 0 between them (spec R95). -/
theorem getLsbD_twistJoin (u l : Word) {k : Nat} (h : k < 64) : (twistJoin u l).getLsbD k =
    ((decide (k = 63) && u.getLsbD k) || (decide (k < 31) && l.getLsbD k)) := by
  rw [twistJoin, BitVec.getLsbD_or, BitVec.getLsbD_and, BitVec.getLsbD_and, getLsbD_upperMask h, getLsbD_lowerMask h,
    Bool.and_comm, Bool.and_comm (l.getLsbD k)]

/-- The step adds `MATRIX_A` exactly when `l[0]` is 1, and shifts `x` in either case (spec R95). -/
theorem twistMix_eq_shift_xor (u l : Word) :
    twistMix u l = (twistJoin u l >>> 1) ^^^ if l.getLsbD 0 then Config.matrixA else 0#64 := by
  have hodd : (twistJoin u l).getLsbD 0 = l.getLsbD 0 := by
    rw [getLsbD_twistJoin u l (by decide)]; rfl
  rw [twistMix_eq_twistJoin, hodd]
  split <;> simp

/-- The shifted `x`: `u[63]` in bit 62 and `l[30:1]` in bits 29..0. -/
theorem getLsbD_twistJoin_shift (u l : Word) (i : Nat) : (twistJoin u l >>> 1).getLsbD i =
    ((decide (i = 62) && u.getLsbD 63) || (decide (i < 30) && l.getLsbD (i + 1))) := by
  rw [BitVec.getLsbD_ushiftRight, Nat.add_comm]
  rcases Nat.lt_or_ge (i + 1) 64 with h | h
  · rw [getLsbD_twistJoin u l h]
    by_cases htop : i = 62
    · subst htop; rfl
    · have hlow : i + 1 < 31 ↔ i < 30 := Nat.succ_lt_succ_iff
      simp [htop, hlow]
  · have htop : i ≠ 62 := by omega
    have hlow : ¬ i < 30 := by omega
    simp [BitVec.getLsbD_of_ge _ _ h, htop, hlow]

/-- Settles O22: the bits of the shifted `x`, and `MATRIX_A` when `l[0]` is 1. -/
theorem twistMixBitByBit : Obligations.TwistMixBitByBit := by
  intro u l i _
  rw [twistMix_eq_shift_xor, BitVec.getLsbD_xor, getLsbD_twistJoin_shift]
  cases l.getLsbD 0
  · simp
  · rfl

variable {mt : StateArray} {i j : Nat}

/-- Step `i` of the loop leaves every other word as the steps before it left it (spec R92). -/
theorem twistSteps_succ_other (hi : i < Config.N) (hj : j < Config.N) (h : j ≠ i) :
    readWord (twistSteps (i + 1) mt) j = readWord (twistSteps i mt) j := by
  rw [twistSteps_succ, twistStep_other]
  rwa [Nat.mod_eq_of_lt hi, Nat.mod_eq_of_lt hj, ne_comm]

/-- Step `i` of the loop writes word `i` from the array as the steps before it left it (spec R92). -/
theorem twistSteps_succ_same : readWord (twistSteps (i + 1) mt) i =
    readWord (twistSteps i mt) (i + Config.M) ^^^
      twistMix (readWord (twistSteps i mt) i) (readWord (twistSteps i mt) (i + 1)) :=
  twistStep_same _ _

/-- Settles O20: the sequence of arrays is the array after the first `i` steps. -/
theorem twistIsTheSequentialLoop : Obligations.TwistIsTheSequentialLoop := by
  intro g
  refine ⟨fun n => twistSteps n g.mt, rfl, rfl, fun i hi => ⟨fun j hj h => twistSteps_succ_other hi hj h, ?_⟩⟩
  refine ⟨twistJoin (readWord (twistSteps i g.mt) i) (readWord (twistSteps i g.mt) (i + 1)), _, ?_, rfl, ?_⟩
  · rw [readWord_mod]; rfl
  · rw [readWord_mod]; exact twistSteps_succ_same

/-- What step `i` reads of a word from `i` on is the old word (spec R92). -/
theorem readWord_twistSteps_of_le (hi : i ≤ j) (hj : j < 312) : readWord (twistSteps i mt) j = readWord mt j :=
  twistSteps_later mt j i (hi.trans hj.le) hi hj

/-- What step `i` reads of an earlier word is the word the whole twist leaves there (spec R92). -/
theorem readWord_twistSteps_of_lt (hj : j < i) (hi : i ≤ 312) :
    readWord (twistSteps i mt) j = readWord (twistSteps 312 mt) j := by
  rw [twistSteps_settled mt j i hi hj, twistSteps_settled mt j 312 le_rfl (hj.trans_le hi)]

/-- The word the whole twist leaves at `i` is the one step `i` wrote, from an old word `i` (spec R92, R93). -/
theorem readWord_twist (hi : i < 312) : readWord (twistSteps 312 mt) i =
    readWord (twistSteps i mt) (i + 156) ^^^ twistMix (readWord mt i) (readWord (twistSteps i mt) (i + 1)) := by
  rw [twistSteps_settled mt i 312 le_rfl hi, twistSteps_succ_same, readWord_twistSteps_of_le le_rfl hi]

/-- Before the last step, the next word is still the old one (spec R93). -/
theorem readWord_twist_of_lt (hi : i + 1 < 312) : readWord (twistSteps 312 mt) i =
    readWord (twistSteps i mt) (i + 156) ^^^ twistMix (readWord mt i) (readWord mt (i + 1)) := by
  rw [readWord_twist (Nat.lt_of_succ_lt hi), readWord_twistSteps_of_le (Nat.le_succ i) hi]

/-- From word 156 on the offset wraps round, to a word the loop has already written (spec R93). -/
theorem readWord_twistSteps_offset (hM : 156 ≤ i) (hi : i < 312) :
    readWord (twistSteps i mt) (i + 156) = readWord (twistSteps 312 mt) (i - 156) := by
  have hwrap : (i + 156) % 312 = i - 156 := by omega
  rw [← readWord_mod, hwrap, readWord_twistSteps_of_lt (by omega) hi.le]

/-- Settles O21: the offset word is old below 156 and new from there on, and only the last step's next word is new. -/
theorem twistEqualsItsTwoArrayForm : Obligations.TwistEqualsItsTwoArrayForm := by
  intro old
  refine ⟨fun i hi => ?_, fun i hM hi => ?_, ?_⟩
  · rw [readWord_twist_of_lt (by omega), readWord_twistSteps_of_le (Nat.le_add_right i 156) (by omega)]
  · rw [readWord_twist_of_lt (by omega), readWord_twistSteps_offset hM (by omega)]
  · have hnext : readWord (twistSteps 311 old) (311 + 1) = readWord (twistSteps 312 old) 0 :=
      readWord_twistSteps_of_lt (j := 0) (i := 311) (by decide) (by decide)
    rw [readWord_twist (by decide), readWord_twistSteps_offset (by decide) (by decide), hnext]

end Sys2Proof.Machine
end

section
/-! Extraction on the output stream of a seed: what EXTRACT answers, that every step keeps a seeded engine on a stream,
and the place of each extraction in it (spec R90, R100, R101, R106). -/

namespace Sys2Proof.Machine

variable {i : Instr} {s t : State} {job : BoundedJob} {a : HostAction} {g : GeneratorState}

/-! ## EXTRACT -/

theorem exec_extract_of_seeded (hs : s.seeded = true) : exec .extract s = .next { s with
    gen := (extractWord s.gen).2
    responses := s.responses ++ [⟨.ok, (extractWord s.gen).1⟩] } :=
  whenSeeded_of_seeded _ hs

/-- Settles O24: EXTRACT draws once, and the draw is an extraction below 312 or one from 312 on. -/
theorem extractAnswersTheTemperedWord : Obligations.ExtractAnswersTheTemperedWord := by
  intro s hs
  rw [exec_extract_of_seeded hs]
  refine ⟨fun hlt => ?_, fun hge => ?_⟩
  · rw [extractWord_of_lt s.gen hlt]
  · rw [extractWord_of_ge s.gen hge]
    rfl

/-! ## The invariant `OnStream` -/

theorem GeneratorState.OnStream.afterExtractions (h : g.OnStream) (d : Nat) :
    GeneratorState.OnStream (afterExtractions d g) := by
  obtain ⟨seed, k, rfl⟩ := h
  exact ⟨seed, k + d, (afterExtractions_add _ k d).symm⟩

/-- What leaves `SEEDED` and moves on by whole extractions stays on the stream (spec R106). -/
theorem State.OnStream.of_extractions (hs : s.OnStream) (hseeded : t.seeded = s.seeded)
    (hgen : ∃ d, t.gen = afterExtractions d s.gen) : t.OnStream := by
  intro ht
  obtain ⟨d, hd⟩ := hgen
  rw [hd]
  exact (hs (hseeded ▸ ht)).afterExtractions d

theorem LoopOutcome.onStream (h : LoopOutcome job s t) (hs : s.OnStream) : t.OnStream :=
  hs.of_extractions h.seeded_eq h.gen

theorem ExecOutcome.onStream (h : ExecOutcome i s t) (hs : s.OnStream) : t.OnStream := by
  cases h with
  | seeded seed r => exact fun _ => ⟨seed, 0, rfl⟩
  | answered r => exact hs
  | drew r => exact hs.of_extractions rfl ⟨1, rfl⟩
  | looped job _ _ _ ht => exact ht.onStream hs

theorem ActOutcome.onStream (h : ActOutcome a s t) (hs : s.OnStream) : t.OnStream := by
  cases h with
  | looped job _ ht => exact ht.onStream hs
  | executed w i _ _ _ ht => exact ht.onStream hs
  | reset => exact nofun
  | unchanged | illegal | released => exact hs

/-- Settles O55: the step is one of the outcomes of a host action, and each keeps the engine on a stream. -/
theorem stepKeepsTheEngineOnAStream : Obligations.StepKeepsTheEngineOnAStream :=
  fun s _ hs h => (step_next h).onStream (s := s.takeAction) hs

/-! ## The place of an extraction in the stream -/

/-- The refilled state is all that an extraction reads (spec R101). -/
theorem extractWord_eq_refill (g : GeneratorState) : extractWord g =
    (temper (readWord (refill g).mt (refill g).idx.toNat), ⟨(refill g).mt, (refill g).idx + 1#9⟩) := rfl

/-- The refill after an extraction moves on within the batch, or twists once its 312 words are used up (spec R90). -/
theorem refill_next {mt : StateArray} {n : Nat} (hn : n < 312) : refill ⟨mt, BitVec.ofNat 9 n + 1#9⟩ =
    if n = 311 then ⟨twistSteps 312 mt, 0#9⟩ else ⟨mt, BitVec.ofNat 9 (n + 1)⟩ := by
  have hidx : (⟨mt, BitVec.ofNat 9 n + 1#9⟩ : GeneratorState).idx.toNat = n + 1 := by
    rw [← BitVec.ofNat_add, BitVec.toNat_ofNat, Nat.mod_eq_of_lt (by omega)]
  split
  · next hlast => exact refill_of_ge _ (by rw [hidx, hlast])
  · next hnot =>
    have hlt : n + 1 < 312 := by omega
    rw [refill_of_lt _ (hidx.trans_lt hlt), BitVec.ofNat_add]

/-- After `k` extractions from a seed, the refilled state holds batch `k / 312 + 1` with the cursor at `k mod 312` (spec
R106). -/
theorem refill_afterExtractions (seed : Word) (k : Nat) : refill (afterExtractions k (initializeFrom seed)) =
    ⟨batchArray seed (k / 312 + 1), BitVec.ofNat 9 (k % 312)⟩ := by
  induction k with
  | zero => rfl
  | succ k ih =>
    rw [afterExtractions_succ', extractWord_eq_refill, ih, refill_next (Nat.mod_lt k (by decide))]
    split
    · next hlast =>
      have hdiv : (k + 1) / 312 = k / 312 + 1 := by omega
      have hmod : (k + 1) % 312 = 0 := by omega
      rw [hdiv, hmod]
      rfl
    · next hlast =>
      have hdiv : (k + 1) / 312 = k / 312 := by omega
      have hmod : (k + 1) % 312 = k % 312 + 1 := by omega
      rw [hdiv, hmod]

theorem afterExtractions_initializeFrom_idx_pos (seed : Word) (k : Nat) :
    0 < (afterExtractions k (initializeFrom seed)).idx.toNat := by
  cases k with
  | zero => exact Nat.zero_lt_succ 311
  | succ k => rw [afterExtractions_succ']; exact (extractWord_idx_bounds _).1

/-- A cursor that is not 0 is due for a twist exactly when the refill sets it to 0 (spec R90). -/
theorem le_idx_iff_refill_idx (hpos : 0 < g.idx.toNat) : Config.N ≤ g.idx.toNat ↔ (refill g).idx.toNat = 0 := by
  by_cases hge : Config.N ≤ g.idx.toNat
  · simp [refill_of_ge g hge, hge]
  · rw [refill_of_lt g (Nat.lt_of_not_le hge)]
    exact iff_of_false hge hpos.ne'

/-- Settles O28: extraction `k` reads the state that `refill_afterExtractions` gives after `k - 1` extractions. -/
theorem extractionStandsAtItsPlaceInTheStream : Obligations.ExtractionStandsAtItsPlaceInTheStream := by
  intro seed k _
  have hrefill := refill_afterExtractions seed (k - 1)
  have hpos := afterExtractions_initializeFrom_idx_pos seed (k - 1)
  have hidx : (refill (afterExtractions (k - 1) (initializeFrom seed))).idx.toNat = (k - 1) % 312 := by
    rw [hrefill, BitVec.toNat_ofNat, Nat.mod_eq_of_lt (by omega)]
  refine ⟨_, rfl, ?_, ?_, ?_, ?_⟩
  · rw [← hidx]
    exact le_idx_iff_refill_idx hpos
  · rw [← hidx, extractWord_eq_refill, hrefill]
  · rw [extractWord_eq_refill, hrefill]
  · rw [extractWord_idx_toNat, hidx]

end Sys2Proof.Machine
end

section
/-! Tempering and the output selector: each step adds to the word, by exclusive or, a shifted and masked copy of it.
Only 0 is its own copy, so the step is linear and maps no other word to 0 (spec R102, R103, R105). -/

namespace Sys2Proof.Machine

/-- Settles O25: the values between the lines are those of `temper1`, `temper2` and `temper3`. -/
theorem temperIsTheFourSteps : Obligations.TemperIsTheFourSteps :=
  fun y => ⟨temper1 y, temper2 (temper1 y), temper3 (temper2 (temper1 y)), rfl, rfl, rfl, rfl⟩

/-! ## Linear maps of words -/

/-- `f` is linear over exclusive or. -/
def XorLinear (f : Word → Word) : Prop := ∀ a b, f (a ^^^ b) = f a ^^^ f b

variable {f f' : Word → Word} {y m : Word} {k : Nat}

theorem XorLinear.map_zero (h : XorLinear f) : f 0#64 = 0#64 := by
  have hzero := h 0#64 0#64
  rwa [BitVec.xor_self, BitVec.xor_self] at hzero

theorem XorLinear.comp (h : XorLinear f) (h' : XorLinear f') : XorLinear (f ∘ f') := fun a b => by
  rw [Function.comp_apply, h', h]; rfl

theorem XorLinear.self_xor (h : XorLinear f) : XorLinear fun y => y ^^^ f y := fun a b => by
  beta_reduce; rw [h]; ac_rfl

/-- A linear map of words is one-to-one when only 0 maps to 0, and then also onto, for there are finitely many words. -/
theorem XorLinear.bijective (h : XorLinear f) (hker : ∀ y, f y = 0#64 → y = 0#64) : Function.Bijective f := by
  refine Finite.injective_iff_bijective.mp fun a b hab => ?_
  have hdiff : a ^^^ b = 0#64 := hker _ (by rw [h, hab, BitVec.xor_self])
  exact BitVec.xor_eq_zero_iff.mp hdiff

/-- Adding a linear image of a word to the word is a bijection when no word but 0 is its own image. -/
theorem XorLinear.self_xor_bijective (h : XorLinear f) (hfix : ∀ y, y = f y → y = 0#64) :
    Function.Bijective fun y => y ^^^ f y :=
  h.self_xor.bijective fun y hy => hfix y (BitVec.xor_eq_zero_iff.mp hy)

/-! ## The copies that the steps add -/

theorem xor_and_distrib_right (a b m : Word) : (a ^^^ b) &&& m = (a &&& m) ^^^ (b &&& m) :=
  BitVec.eq_of_getLsbD_eq fun _ _ => by simp only [BitVec.getLsbD_and, BitVec.getLsbD_xor, Bool.and_xor_distrib_right]

theorem shiftRight_and_xorLinear (k : Nat) (m : Word) : XorLinear fun y : Word => (y >>> k) &&& m := fun a b => by
  beta_reduce; rw [BitVec.ushiftRight_xor_distrib, xor_and_distrib_right]

theorem shiftLeft_and_xorLinear (k : Nat) (m : Word) : XorLinear fun y : Word => (y <<< k) &&& m := fun a b => by
  beta_reduce; rw [BitVec.shiftLeft_xor_distrib, xor_and_distrib_right]

/-- A shift to the right makes every number but 0 smaller, and a mask makes none larger. -/
theorem eq_zero_of_eq_shiftRight_and (hk : 0 < k) (h : y = (y >>> k) &&& m) : y = 0#64 := by
  have hle : y.toNat ≤ y.toNat / 2 ^ k := by
    calc y.toNat = ((y >>> k) &&& m).toNat := congrArg BitVec.toNat h
      _ ≤ (y >>> k).toNat := by rw [BitVec.toNat_and]; exact Nat.and_le_left
      _ = y.toNat / 2 ^ k := by rw [BitVec.toNat_ushiftRight, Nat.shiftRight_eq_div_pow]
  by_contra hne
  have hpos : 0 < y.toNat := Nat.pos_of_ne_zero fun hzero => hne (BitVec.eq_of_toNat_eq hzero)
  exact absurd hle (Nat.not_le.mpr (Nat.div_lt_self hpos (Nat.one_lt_two_pow hk.ne')))

/-- A shift to the left gives each bit the value of a lower one, or 0, so from the lowest up all of them are 0. -/
theorem eq_zero_of_eq_shiftLeft_and (hk : 0 < k) (h : y = (y <<< k) &&& m) : y = 0#64 := by
  have hbit (i : Nat) : y.getLsbD i = false := by
    induction i using Nat.strong_induction_on with
    | _ i ih =>
      rw [h, BitVec.getLsbD_and, BitVec.getLsbD_shiftLeft]
      by_cases hi : i < k
      · simp [hi]
      · simp [ih (i - k) (by omega)]
  exact BitVec.eq_of_getLsbD_eq fun i _ => by rw [hbit, BitVec.getLsbD_zero]

/-! ## The steps -/

theorem temper4_eq_masked : temper4 = fun y : Word => y ^^^ ((y >>> Config.t4Shift) &&& BitVec.allOnes 64) :=
  funext fun y => by rw [BitVec.and_allOnes]; rfl

theorem temper1_xorLinear : XorLinear temper1 := (shiftRight_and_xorLinear Config.t1Shift Config.t1Mask).self_xor

theorem temper2_xorLinear : XorLinear temper2 := (shiftLeft_and_xorLinear Config.t2Shift Config.t2Mask).self_xor

theorem temper3_xorLinear : XorLinear temper3 := (shiftLeft_and_xorLinear Config.t3Shift Config.t3Mask).self_xor

theorem temper4_xorLinear : XorLinear temper4 := by
  rw [temper4_eq_masked]
  exact (shiftRight_and_xorLinear _ _).self_xor

theorem temper1_bijective : Function.Bijective temper1 :=
  (shiftRight_and_xorLinear _ _).self_xor_bijective fun _ => eq_zero_of_eq_shiftRight_and (by decide)

theorem temper2_bijective : Function.Bijective temper2 :=
  (shiftLeft_and_xorLinear _ _).self_xor_bijective fun _ => eq_zero_of_eq_shiftLeft_and (by decide)

theorem temper3_bijective : Function.Bijective temper3 :=
  (shiftLeft_and_xorLinear _ _).self_xor_bijective fun _ => eq_zero_of_eq_shiftLeft_and (by decide)

theorem temper4_bijective : Function.Bijective temper4 := by
  rw [temper4_eq_masked]
  exact (shiftRight_and_xorLinear _ _).self_xor_bijective fun _ => eq_zero_of_eq_shiftRight_and (by decide)

theorem temper_eq_comp : temper = temper4 ∘ temper3 ∘ temper2 ∘ temper1 := rfl

theorem temper_xorLinear : XorLinear temper :=
  temper4_xorLinear.comp (temper3_xorLinear.comp (temper2_xorLinear.comp temper1_xorLinear))

theorem temper_bijective : Function.Bijective temper :=
  temper4_bijective.comp (temper3_bijective.comp (temper2_bijective.comp temper1_bijective))

/-- Settles O26: `TEMPER` is the four steps composed, and each of them is linear and a bijection. -/
theorem temperIsALinearBijection : Obligations.TemperIsALinearBijection :=
  ⟨temper_xorLinear.map_zero, temper_xorLinear, temper1_bijective, temper2_bijective, temper3_bijective,
    temper4_bijective, temper_bijective⟩

/-! ## The output selector -/

theorem sel63_eq_div (t : Word) : sel63 t = t.toNat / 2 :=
  BitVec.toNat_ushiftRight t 1

/-- `SEL31` leaves the sign bit 0, so the `i32` is the number it stands for (spec R105). -/
theorem sel31_toInt (t : Word) : (sel31 t).toInt = (t.toNat / 2 ^ 33 : Nat) := by
  have hlt := t.isLt
  rw [BitVec.toInt_eq_toNat_of_lt, sel31_toNat]
  rw [sel31_toNat]
  omega

/-- Settles O27: shifts are quotients, and a word divided by `2^33` is below `2^31`. -/
theorem selectorTakesTheTopBits : Obligations.SelectorTakesTheTopBits := by
  intro t
  have hlt := t.isLt
  refine ⟨rfl, sel63_eq_div t, sel31_toNat t, ?_, ?_⟩ <;> rw [sel31_toInt] <;> omega

end Sys2Proof.Machine
end

section
/-! Bounded integers: the argument checks of RANDINT and RANDRANGE, the comparator, and the rejection loop up to its
first accepted draw (spec R115 to R125). -/

namespace Sys2Proof.Machine

variable {i : Instr} {s t : State} {job : BoundedJob} {bound lo hi : I32} {g : GeneratorState} {d n b : Nat}

theorem toNat_pos_of_toInt_pos (hb : 0 < bound.toInt) : 0 < bound.toNat := by
  rw [toInt_of_pos hb] at hb
  omega

/-! ## Argument checks -/

/-- Settles O31: the non-positive patterns are 0 and those with bit 31 set, and the failed check answers. -/
theorem randintRejectsNonPositiveBounds : Obligations.RandintRejectsNonPositiveBounds := by
  intro bound s hs
  refine ⟨?_, exec_of_argumentCheckFails (i := .randint bound) rfl hs⟩
  rw [BitVec.toInt_eq_toNat_cond, ← BitVec.toNat_inj, BitVec.toNat_ofNat]
  have hlt := bound.isLt
  split <;> omega

/-- The exact difference is one that fits an `i32` and is positive (spec R124). -/
def RangeFits (lo hi : I32) : Prop := 1 ≤ hi.toInt - lo.toInt ∧ hi.toInt - lo.toInt ≤ 2 ^ 31 - 1

theorem argumentCheckFails_randrange_iff : ArgumentCheckFails (.randrange lo hi) ↔ ¬ RangeFits lo hi := by
  rw [ArgumentCheckFails, RangeFits]
  omega

/-- A difference that fits is not wrapped (spec R124). -/
theorem RangeFits.sub32_toInt (h : RangeFits lo hi) : (sub32 hi lo).toInt = hi.toInt - lo.toInt := by
  obtain ⟨hpos, hle⟩ := h
  rw [sub32, BitVec.toInt_sub, Int.bmod]
  omega

theorem RangeFits.sub32_pos (h : RangeFits lo hi) : 0 < (sub32 hi lo).toInt :=
  h.sub32_toInt ▸ h.1

theorem RangeFits.sub32_toNat (h : RangeFits lo hi) : (sub32 hi lo).toNat = (hi.toInt - lo.toInt).toNat := by
  rw [← h.sub32_toInt, toInt_of_pos h.sub32_pos, Int.toNat_natCast]

theorem exec_randint_of_pos (hs : s.seeded = true) (hb : 0 < bound.toInt) :
    exec (.randint bound) s = runJob ⟨bound, 0#32⟩ s :=
  exec_of_checked (i := .randint bound) rfl (.inr hs) (not_le.mpr hb)

theorem exec_randrange_of_fits (hs : s.seeded = true) (h : RangeFits lo hi) :
    exec (.randrange lo hi) s = runJob ⟨sub32 hi lo, lo⟩ s :=
  exec_of_checked (i := .randrange lo hi) rfl (.inr hs) (mt argumentCheckFails_randrange_iff.mp (not_not.mpr h))

/-- Settles O32: a range that does not fit fails its check, and the loop run over one that fits raises nothing. -/
theorem randrangeAcceptsExactlyTheRangesThatFit : Obligations.RandrangeAcceptsExactlyTheRangesThatFit := by
  intro lo hi s hs
  refine ⟨fun hexec hfits => ?_, fun hnot => ?_⟩
  · rw [exec_randrange_of_fits hs hfits] at hexec
    obtain ⟨t, hrun, hout⟩ := runJob_answersOkOrDraws (i := .randrange lo hi) ⟨sub32 hi lo, lo⟩ (.inr rfl) (s := s)
    obtain rfl := Host.Outcome.next.inj (hexec.symm.trans hrun)
    rcases hout with ⟨-, d, hok⟩ | ⟨-, -, hnone⟩
    · exact nomatch append_one_inj hok
    · exact absurd hnone (by simp)
  · exact exec_of_argumentCheckFails (i := .randrange lo hi) rfl hs (argumentCheckFails_randrange_iff.mpr hnot)

/-! ## The comparator -/

theorem accept_iff_sum_nonneg (bits val bound : I32) :
    accept bits val bound = true ↔ 0 ≤ (comparatorSum bits val bound).toInt := by
  rw [accept, BitVec.msb_eq_toInt]
  simp

/-- Settles O33: neither subtraction wraps for such operands, so the sum wraps at most once. -/
theorem comparatorAcceptsExactlyWhenTheSumFits : Obligations.ComparatorAcceptsExactlyWhenTheSumFits := by
  intro bits val bound
  refine ⟨rfl, accept_iff_sum_nonneg bits val bound, fun hval hle hbound => ?_⟩
  have hbits := BitVec.toInt_lt (x := bits)
  have hmax := BitVec.toInt_lt (x := bound)
  rw [accept_iff_sum_nonneg, comparatorSum, add32, sub32, sub32, BitVec.toInt_add, BitVec.toInt_sub, BitVec.toInt_sub,
    show (1#32).toInt = 1 from rfl, Int.bmod, Int.bmod, Int.bmod]
  omega

/-- The whole block of `b` values around `bits` lies below `2^31` exactly when `bits` lies below the last, incomplete
block (spec R119). -/
theorem accepts_iff_lt (hb : 0 < b) (bits : Nat) : Accepts b bits ↔ bits < 2 ^ 31 / b * b := by
  rw [← Nat.div_lt_iff_lt_mul hb, ← Nat.succ_le_iff, Nat.le_div_iff_mul_le hb, Nat.succ_mul]
  have hblock : bits - bits % b = bits / b * b := by
    rw [Nat.mul_comm, Nat.mul_div_self_eq_mod_sub_self]
  rw [Accepts, hblock]
  omega

/-- A bound that divides `2^31` leaves no incomplete block (spec R119). -/
theorem accepts_of_dvd (hb : b ∣ 2 ^ 31) {bits : Nat} (h : bits < 2 ^ 31) : Accepts b bits := by
  rwa [accepts_iff_lt (Nat.pos_of_dvd_of_pos hb (by decide)), Nat.div_mul_cancel hb]

/-- Every 31-bit number is `bits` of some tempered word (spec R105). -/
theorem exists_sel31_eq {bits : Nat} (h : bits < 2 ^ 31) : ∃ w, sel31 w = BitVec.ofNat 32 bits := by
  refine ⟨BitVec.ofNat 64 (bits * 2 ^ 33), BitVec.eq_of_toNat_eq ?_⟩
  rw [sel31_toNat, BitVec.toNat_ofNat, BitVec.toNat_ofNat]
  omega

theorem accept_ofNat_iff (hb : 0 < bound.toInt) {bits : Nat} (h : bits < 2 ^ 31) :
    accept (BitVec.ofNat 32 bits) (mod32 (BitVec.ofNat 32 bits) bound) bound = true ↔
      bits < 2 ^ 31 / bound.toNat * bound.toNat := by
  obtain ⟨w, hw⟩ := exists_sel31_eq h
  rw [← hw, accept_draw_iff w bound hb, hw, accepts_iff_lt (toNat_pos_of_toInt_pos hb), BitVec.toNat_ofNat,
    Nat.mod_eq_of_lt (by omega)]

/-- A residue `r` of `b` occurs once in each of `q` whole blocks of `b` values. -/
theorem card_residue (q : Nat) {r : Nat} (hr : r < b) : ((Finset.range (q * b)).filter (· % b = r)).card = q := by
  have hb : 0 < b := Nat.zero_lt_of_lt hr
  have h := Nat.count_modEq_card (q * b) hb r
  rw [Nat.mul_mod_left, if_neg (Nat.not_lt_zero _), Nat.mul_div_cancel q hb, Nat.count_eq_card_filter_range] at h
  simpa only [Nat.ModEq, Nat.mod_eq_of_lt hr, Nat.add_zero] using h

/-- Settles O34: the accepted values are the `q` whole blocks, and each residue occurs once in each. -/
theorem acceptedDrawsAreUniform : Obligations.AcceptedDrawsAreUniform := by
  intro bound hb
  have hpos := toNat_pos_of_toInt_pos hb
  have hmax : bound.toNat < 2 ^ 31 := by
    have := BitVec.toInt_lt (x := bound)
    rw [toInt_of_pos hb] at this
    omega
  have haccept {bits : Nat} (h : bits < 2 ^ 31) := accept_ofNat_iff hb h
  have hwhole : 2 ^ 31 / bound.toNat * bound.toNat ≤ 2 ^ 31 := Nat.div_mul_le_self _ _
  refine ⟨_, rfl, fun bits => haccept, ?_, Nat.div_mul_cancel, fun r hr => ?_⟩
  · have hone : 1 * bound.toNat ≤ 2 ^ 31 / bound.toNat * bound.toNat :=
      Nat.mul_le_mul_right _ ((Nat.one_le_div_iff hpos).mpr (by omega))
    have hrest := Nat.lt_div_mul_add hpos (a := 2 ^ 31)
    omega
  · refine (congrArg Finset.card (Finset.ext fun bits => ?_)).trans (card_residue (2 ^ 31 / bound.toNat) hr)
    simp only [Finset.mem_filter, Finset.mem_range]
    constructor
    · rintro ⟨hlt, hacc, hres⟩
      exact ⟨(haccept hlt).mp hacc, hres⟩
    · rintro ⟨hlt, hres⟩
      exact ⟨hlt.trans_le hwhole, (haccept (hlt.trans_le hwhole)).mpr hlt, hres⟩

/-! ## The rejection loop -/

/-- A loop has a first accepted draw or never accepts one (spec R120). -/
theorem firstAccepted_or_neverAccepts (b : Nat) (g : GeneratorState) :
    (∃ d, FirstAccepted b g d) ∨ NeverAccepts b g := by
  by_cases h : ∃ d, Accepts b (drawBits g d)
  · exact .inl ⟨Nat.find h, fun _ => Nat.find_min h, Nat.find_spec h⟩
  · exact .inr (not_exists.mp h)

/-- The passes of one step reach the first accepted draw, if there is one (assumption 6). -/
theorem FirstAccepted.lt_passesPerStep (h : FirstAccepted b g d) : d < Config.passesPerStep :=
  lt_of_not_ge fun hge => neverAccepts_of_passesPerStep g (fun k hk => h.1 k (hk.trans_le hge)) d h.2

theorem boundedPasses_of_firstAccepted (hb : 0 < bound.toInt) (h : FirstAccepted bound.toNat g d) (hd : d < n) :
    boundedPasses bound n g = (some (BitVec.ofNat 32 (drawBits g d % bound.toNat)), afterExtractions (d + 1) g) := by
  obtain ⟨hrej, hacc⟩ := h
  have hval := boundedPass_accepts bound g hb d hacc
  rcases boundedPasses_cases bound g n with ⟨d', -, hrej', val, hval', heq⟩ | ⟨hrej', -⟩
  · have hnot : ¬ d < d' := fun hlt => by simp [hrej' d hlt] at hval
    have hnot' : ¬ d' < d := fun hlt => by simp [(boundedPass_rejects bound g hb d').mpr (hrej d' hlt)] at hval'
    obtain rfl : d' = d := by omega
    rw [heq, ← hval', hval]
  · exact nomatch hval.symm.trans (hrej' d hd)

theorem boundedPasses_of_neverAccepts (hb : 0 < bound.toInt) (h : NeverAccepts bound.toNat g) :
    boundedPasses bound n g = (none, afterExtractions n g) := by
  rcases boundedPasses_cases bound g n with ⟨d, -, -, val, hval, -⟩ | ⟨-, heq⟩
  · exact nomatch hval.symm.trans ((boundedPass_rejects bound g hb d).mpr (h d))
  · exact heq

/-- A loop answers the value of its first accepted draw and has consumed the draws up to it (spec R117, R120). -/
theorem runJob_of_firstAccepted (hb : 0 < job.bound.toInt) (h : FirstAccepted job.bound.toNat s.gen d) :
    runJob job s = .next { s with
      gen := afterExtractions (d + 1) s.gen
      phase := .idle
      responses := s.responses ++
        [⟨.ok, pack32 (add32 (BitVec.ofNat 32 (drawBits s.gen d % job.bound.toNat)) job.offset)⟩] } := by
  rw [runJob, boundedPasses_of_firstAccepted hb h h.lt_passesPerStep]
  rfl

/-- A loop that never accepts is left running and has not answered (spec R120). -/
theorem runJob_of_neverAccepts (hb : 0 < job.bound.toInt) (h : NeverAccepts job.bound.toNat s.gen) :
    runJob job s = .next { s with gen := afterExtractions Config.passesPerStep s.gen, phase := .drawing job } := by
  rw [runJob, boundedPasses_of_neverAccepts hb h]
  rfl

/-- A loop is left running exactly when it never accepts (spec R120). -/
theorem runJob_drawing_iff (hb : 0 < job.bound.toInt) :
    (∃ t, runJob job s = .next t ∧ t.phase = .drawing job ∧ t.responses = s.responses) ↔
      NeverAccepts job.bound.toNat s.gen := by
  constructor
  · rintro ⟨t, hrun, hphase, -⟩
    refine (firstAccepted_or_neverAccepts job.bound.toNat s.gen).resolve_left fun ⟨d, h⟩ => ?_
    obtain rfl := Host.Outcome.next.inj ((runJob_of_firstAccepted hb h).symm.trans hrun)
    exact nomatch hphase
  · exact fun h => ⟨_, runJob_of_neverAccepts hb h, rfl, rfl⟩

/-- Settles O39: with valid operands both commands run the loop, and `runJob_drawing_iff` decides it. -/
theorem loopIsLeftRunningOnlyIfItNeverAccepts : Obligations.LoopIsLeftRunningOnlyIfItNeverAccepts := by
  refine ⟨fun bound s hs hb => ?_, fun lo hi s hs hpos hle => ?_⟩
  · rw [exec_randint_of_pos hs hb]
    exact runJob_drawing_iff (job := ⟨bound, 0#32⟩) hb
  · have hfits : RangeFits lo hi := ⟨hpos, hle⟩
    rw [exec_randrange_of_fits hs hfits, ← hfits.sub32_toNat]
    exact runJob_drawing_iff (job := ⟨sub32 hi lo, lo⟩) hfits.sub32_pos

/-! ## The answers -/

/-- RANDINT's value in the 64 bits of `data` (spec R115). -/
theorem pack32_randint_value {v : Nat} (hv : v < 2 ^ 32) :
    pack32 (add32 (BitVec.ofNat 32 v) 0#32) = BitVec.ofNat 64 v := by
  refine BitVec.eq_of_toNat_eq ?_
  rw [pack32, add32, BitVec.add_zero, BitVec.toNat_setWidth, BitVec.toNat_ofNat, BitVec.toNat_ofNat,
    Nat.mod_eq_of_lt hv]

/-- RANDRANGE's value before it is packed (spec R125). -/
theorem add32_randrange_value (v : Nat) (lo : I32) : add32 (BitVec.ofNat 32 v) lo = BitVec.ofInt 32 (lo.toInt + v) := by
  rw [add32, BitVec.ofInt_add, BitVec.ofInt_toInt, BitVec.ofInt_natCast, BitVec.add_comm]

/-- Settles O35: the check passes and the loop answers its first accepted draw. -/
theorem randintAnswersItsFirstAcceptedDraw : Obligations.RandintAnswersItsFirstAcceptedDraw := by
  intro bound s d hs hb h
  have hval : drawBits s.gen d % bound.toNat < 2 ^ 32 := (Nat.mod_lt _ (toNat_pos_of_toInt_pos hb)).trans bound.isLt
  rw [exec_randint_of_pos hs hb, runJob_of_firstAccepted (job := ⟨bound, 0#32⟩) hb h, pack32_randint_value hval]

/-- Settles O36: the check passes, the bound is the exact difference, and the loop answers its first accepted draw. -/
theorem randrangeAnswersItsFirstAcceptedDraw : Obligations.RandrangeAnswersItsFirstAcceptedDraw := by
  intro lo hi s d hs hlow hle h
  have hfits : RangeFits lo hi := ⟨hlow, hle⟩
  rw [← hfits.sub32_toNat] at h ⊢
  rw [exec_randrange_of_fits hs hfits, runJob_of_firstAccepted (job := ⟨sub32 hi lo, lo⟩) hfits.sub32_pos h,
    add32_randrange_value]
  rfl

theorem drawBits_lt (g : GeneratorState) (k : Nat) : drawBits g k < 2 ^ 31 := by
  have hlt := (extractWord (afterExtractions k g)).1.isLt
  rw [drawBits, sel31_toNat]
  omega

/-- Settles O37: a power of two up to `2^30` divides `2^31`, so the first draw is accepted. -/
theorem powerOfTwoBoundsDrawOnce : Obligations.PowerOfTwoBoundsDrawOnce := by
  intro k s hk hs
  have hle : 2 ^ k ≤ 2 ^ 30 := Nat.pow_le_pow_right (by decide) hk
  have hpos : 0 < 2 ^ k := Nat.two_pow_pos k
  have htoNat : (BitVec.ofNat 32 (2 ^ k)).toNat = 2 ^ k := Nat.mod_eq_of_lt (hle.trans_lt (by decide))
  have hb : 0 < (BitVec.ofNat 32 (2 ^ k)).toInt := by
    rw [BitVec.toInt_eq_toNat_of_lt] <;> omega
  have hfirst : FirstAccepted (BitVec.ofNat 32 (2 ^ k)).toNat s.gen 0 := by
    rw [htoNat]
    exact ⟨nofun, accepts_of_dvd (Nat.pow_dvd_pow 2 (by omega)) (drawBits_lt s.gen 0)⟩
  have h := randintAnswersItsFirstAcceptedDraw _ s 0 hs hb hfirst
  rwa [htoNat] at h

/-! ## The range of the answers -/

/-- An OK answer comes from a command that passed its argument check (spec R67). -/
theorem execChecked_of_ok {data : Word} (hwf : i.WellFormed) (hseed : i.mnemonic ≠ .seed) (h : exec i s = .next t)
    (hok : t.responses = s.responses ++ [⟨.ok, data⟩]) : ¬ ArgumentCheckFails i ∧ execChecked i s = .next t := by
  rw [exec_eq_checks hwf hseed] at h
  rcases whenSeeded_next h with ⟨-, hrun⟩ | ⟨-, rfl⟩
  · by_cases hcheck : argumentCheck i = true
    · rw [if_pos hcheck] at hrun
      cases hrun
      exact nomatch append_one_inj hok
    · rw [if_neg hcheck] at hrun
      exact ⟨mt (argumentCheck_iff i).mpr hcheck, hrun⟩
  · exact nomatch append_one_inj hok

/-- An OK answer of a loop is a value below its bound, moved by the offset (spec R117). -/
theorem runJob_ok {data : Word} (hb : 0 < job.bound.toInt) (h : runJob job s = .next t)
    (hok : t.responses = s.responses ++ [⟨.ok, data⟩]) :
    ∃ v < job.bound.toNat, data = pack32 (add32 (BitVec.ofNat 32 v) job.offset) := by
  rcases firstAccepted_or_neverAccepts job.bound.toNat s.gen with ⟨d, hfirst⟩ | hnever
  · obtain rfl := Host.Outcome.next.inj ((runJob_of_firstAccepted hb hfirst).symm.trans h)
    exact ⟨_, Nat.mod_lt _ (toNat_pos_of_toInt_pos hb), congrArg Response.data (append_one_inj hok).symm⟩
  · obtain rfl := Host.Outcome.next.inj ((runJob_of_neverAccepts hb hnever).symm.trans h)
    exact absurd hok (by simp)

theorem setWidth_pack32 (v : BitVec 32) : (pack32 v).setWidth 32 = v := by
  rw [pack32, BitVec.setWidth_setWidth_of_le _ (by decide), BitVec.setWidth_eq]

theorem pack32_toNat (v : BitVec 32) : (pack32 v).toNat = v.toNat :=
  BitVec.toNat_setWidth_of_le (by decide)

/-- A value below the difference of a range, moved by its lower end, is not wrapped (spec R125). -/
theorem RangeFits.add32_toInt (h : RangeFits lo hi) {v : Nat} (hv : v < (hi.toInt - lo.toInt).toNat) :
    (add32 (BitVec.ofNat 32 v) lo).toInt = lo.toInt + v := by
  have hlo := BitVec.le_toInt lo
  have hhi := BitVec.toInt_lt (x := hi)
  obtain ⟨hpos, hle⟩ := h
  rw [add32_randrange_value, BitVec.toInt_ofInt, Int.bmod]
  omega

/-- Settles O38: an OK answer is a value below the loop's bound, moved by the offset without a wrap. -/
theorem boundedResultsAreInRange : Obligations.BoundedResultsAreInRange := by
  refine ⟨fun bound s t d hb hexec hok => ?_, fun lo hi s t d hexec hok => ?_⟩
  · obtain ⟨-, hrun⟩ := execChecked_of_ok (i := .randint bound) rfl nofun hexec hok
    obtain ⟨v, hv, rfl⟩ := runJob_ok (job := ⟨bound, 0#32⟩) hb hrun hok
    rw [pack32_toNat, add32, BitVec.add_zero, BitVec.toNat_ofNat]
    exact (Nat.mod_le _ _).trans_lt hv
  · obtain ⟨hcheck, hrun⟩ := execChecked_of_ok (i := .randrange lo hi) rfl nofun hexec hok
    have hfits : RangeFits lo hi := not_not.mp (mt argumentCheckFails_randrange_iff.mpr hcheck)
    obtain ⟨v, hv, rfl⟩ := runJob_ok (job := ⟨sub32 hi lo, lo⟩) hfits.sub32_pos hrun hok
    have hlt : v < (hi.toInt - lo.toInt).toNat := hfits.sub32_toNat ▸ hv
    rw [pack32_toNat, setWidth_pack32, hfits.add32_toInt hlt]
    refine ⟨BitVec.isLt _, ?_, ?_⟩ <;> omega

end Sys2Proof.Machine
end

section
/-! Rounding in both formats: a bit pattern as a number of units of some binary place, the rounded quotient, and from
them which values round to at most a given pattern (spec R135, 93 G1). -/

namespace Sys2Proof.Machine

/-! ## The rounded quotient -/

section
variable {n d q c : Nat}

/-- A quotient rounds to at most `q` when it is below `q + 1/2`, or is `q + 1/2` and `q` is even. -/
theorem roundQuotient_le_iff (hd : 0 < d) :
    roundQuotient n d ≤ q ↔ 2 * n < (2 * q + 1) * d ∨ (2 * n = (2 * q + 1) * d ∧ q % 2 = 0) := by
  have hn := Nat.div_add_mod' n d
  have hr := Nat.mod_lt n hd
  have hmid : (2 * q + 1) * d = 2 * (q * d) + d := by ring
  unfold roundQuotient
  dsimp only
  rw [hmid]
  generalize n / d = k at *
  generalize n % d = r at *
  rcases Nat.lt_trichotomy k q with hlt | rfl | hgt
  · have hprod : (k + 1) * d ≤ q * d := Nat.mul_le_mul_right d hlt
    rw [Nat.succ_mul] at hprod
    refine iff_of_true ?_ (.inl (by omega))
    split <;> omega
  · split <;> omega
  · have hprod : (q + 1) * d ≤ k * d := Nat.mul_le_mul_right d hgt
    rw [Nat.succ_mul] at hprod
    refine iff_of_false ?_ (by omega)
    split <;> omega

theorem roundQuotient_le (hd : 0 < d) (h : n ≤ q * d) : roundQuotient n d ≤ q := by
  refine (roundQuotient_le_iff hd).mpr (.inl ?_)
  linarith

theorem le_roundQuotient (hd : 0 < d) (h : q * d ≤ n) : q ≤ roundQuotient n d := by
  refine ((Nat.le_div_iff_mul_le hd).mpr h).trans ?_
  unfold roundQuotient
  dsimp only
  split <;> omega

theorem roundQuotient_mul_right (hd : 0 < d) (hc : 0 < c) : roundQuotient (n * c) (d * c) = roundQuotient n d := by
  refine eq_of_forall_ge_iff fun q => ?_
  rw [roundQuotient_le_iff (Nat.mul_pos hd hc), roundQuotient_le_iff hd, ← Nat.mul_assoc, ← Nat.mul_assoc,
    Nat.mul_lt_mul_right hc, Nat.mul_left_inj hc.ne']

theorem roundQuotient_mul_self (hd : 0 < d) : roundQuotient (n * d) d = n := by
  simp [roundQuotient, Nat.mul_div_cancel n hd, hd]

end

/-! ## Bit patterns as units of a binary place -/

/-- The field widths that the rules below need: room for a subnormal, a normal and an infinity, and a last fraction
bit that tells even from odd. -/
structure FloatFormat.WellSized (f : FloatFormat) : Prop where
  two_le_expBits : 2 ≤ f.expBits
  one_le_fracBits : 1 ≤ f.fracBits

theorem binary64_wellSized : binary64.WellSized := ⟨by decide, by decide⟩

theorem binary32_wellSized : binary32.WellSized := ⟨by decide, by decide⟩

/-- A place holds an even number of patterns, so a pattern is even where its significand is. -/
theorem FloatFormat.WellSized.two_dvd {f : FloatFormat} (hf : f.WellSized) : 2 ∣ 2 ^ f.fracBits :=
  dvd_pow_self 2 (Nat.ne_of_gt hf.one_le_fracBits)

/-- The pattern `b` stands for `q` units of the place `2^k`. The power of two where the next place begins may be written
in either place. -/
structure FloatFormat.Place (f : FloatFormat) (b k q : Nat) : Prop where
  eq_add : b = k * 2 ^ f.fracBits + q
  le_double : q ≤ 2 * 2 ^ f.fracBits
  normal : k = 0 ∨ 2 ^ f.fracBits ≤ q

variable {f : FloatFormat} {a b k q num num' den : Nat}

theorem FloatFormat.expField_of_lt (hb : b < f.signWeight) : f.expField b = b / 2 ^ f.fracBits := by
  rw [f.signWeight_eq_mul] at hb
  exact Nat.mod_eq_of_lt (Nat.div_lt_of_lt_mul hb)

theorem FloatFormat.infinityBits_lt_signWeight (f : FloatFormat) : f.infinityBits < f.signWeight := by
  rw [f.signWeight_eq_add]
  exact Nat.lt_add_of_pos_right (Nat.two_pow_pos _)

theorem FloatFormat.Place.units (h : f.Place b k q) (hb : b < f.signWeight) : f.units b = q * 2 ^ k := by
  obtain ⟨rfl, hle, hnormal⟩ := h
  have hpos : 0 < 2 ^ f.fracBits := Nat.two_pow_pos _
  rw [FloatFormat.units, f.expField_of_lt hb, FloatFormat.fracField, Nat.mul_comm k, Nat.mul_add_div hpos,
    Nat.mul_add_mod]
  generalize 2 ^ f.fracBits = p at *
  rcases Nat.lt_or_ge q p with hlow | hhigh
  · obtain rfl : k = 0 := hnormal.resolve_right (Nat.not_le.mpr hlow)
    simp [Nat.div_eq_of_lt hlow, Nat.mod_eq_of_lt hlow]
  · obtain ⟨m, rfl⟩ := Nat.exists_eq_add_of_le hhigh
    rw [Nat.add_div_left m hpos, Nat.add_mod_left]
    rcases Nat.lt_or_eq_of_le (show m ≤ p by omega) with hm | rfl
    · simp [Nat.div_eq_of_lt hm, Nat.mod_eq_of_lt hm]
    · simp only [Nat.div_self hpos, Nat.mod_self]
      rw [if_neg (by omega), show k + (1 + 1) - 1 = k + 1 by omega]
      ring

theorem FloatFormat.exists_place (f : FloatFormat) (b : Nat) : ∃ k q, f.Place b k q ∧ q < 2 * 2 ^ f.fracBits := by
  have hsplit := Nat.div_add_mod' b (2 ^ f.fracBits)
  have hrest := Nat.mod_lt b (Nat.two_pow_pos f.fracBits)
  rcases Nat.eq_zero_or_pos (b / 2 ^ f.fracBits) with hsub | hnormal
  · rw [hsub] at hsplit
    exact ⟨0, b, ⟨by omega, by omega, .inl rfl⟩, by omega⟩
  · obtain ⟨k, hk⟩ := Nat.exists_eq_add_of_le' hnormal
    rw [hk, Nat.succ_mul] at hsplit
    exact ⟨k, 2 ^ f.fracBits + b % 2 ^ f.fracBits, ⟨by omega, by omega, .inr (by omega)⟩, by omega⟩

theorem FloatFormat.Place.succ (h : f.Place b k q) (hq : q < 2 * 2 ^ f.fracBits) : f.Place (b + 1) k (q + 1) :=
  ⟨congrArg (· + 1) h.eq_add, hq, h.normal.imp_right Nat.le_succ_of_le⟩

theorem FloatFormat.units_lt_units_succ (hb : b + 1 < f.signWeight) : f.units b < f.units (b + 1) := by
  obtain ⟨k, q, hplace, hq⟩ := f.exists_place b
  rw [hplace.units (Nat.lt_of_succ_lt hb), (hplace.succ hq).units hb]
  exact Nat.mul_lt_mul_of_pos_right (Nat.lt_succ_self q) (Nat.two_pow_pos k)

/-- Larger patterns have larger values. -/
theorem FloatFormat.units_lt_units (hab : a < b) (hb : b < f.signWeight) : f.units a < f.units b := by
  induction b, hab using Nat.le_induction with
  | base => exact f.units_lt_units_succ hb
  | succ b _ ih => exact (ih (Nat.lt_of_succ_lt hb)).trans (f.units_lt_units_succ hb)

theorem FloatFormat.units_le_units (hab : a ≤ b) (hb : b < f.signWeight) : f.units a ≤ f.units b := by
  rcases Nat.lt_or_eq_of_le hab with hlt | rfl
  · exact (f.units_lt_units hlt hb).le
  · exact le_rfl

@[simp] theorem FloatFormat.units_zero (f : FloatFormat) : f.units 0 = 0 := by
  simp [FloatFormat.units, FloatFormat.expField, FloatFormat.fracField]

/-- Raising the exponent field of a normal pattern by `j` multiplies its value by `2^j`. -/
theorem FloatFormat.units_add_exponent {j : Nat} (hnormal : 2 ^ f.fracBits ≤ b)
    (hlt : b + j * 2 ^ f.fracBits < f.signWeight) : f.units (b + j * 2 ^ f.fracBits) = f.units b * 2 ^ j := by
  obtain ⟨k, q, ⟨rfl, hq, hk⟩, -⟩ := f.exists_place b
  have hfull : 2 ^ f.fracBits ≤ q := hk.elim (fun h => by simpa [h] using hnormal) id
  have hplace : f.Place (k * 2 ^ f.fracBits + q + j * 2 ^ f.fracBits) (k + j) q := ⟨by ring, hq, .inr hfull⟩
  have hplace' : f.Place (k * 2 ^ f.fracBits + q) k q := ⟨rfl, hq, hk⟩
  rw [hplace.units hlt, hplace'.units (Nat.lt_of_le_of_lt (Nat.le_add_right _ _) hlt), pow_add, Nat.mul_assoc]

/-- A pattern below that of `+infinity` is finite and non-negative, and `units` counts its value. -/
theorem FloatFormat.value_of_lt (hb : b < f.infinityBits) : f.value b = .finite false (f.units b) (2 ^ f.scale) := by
  have hlt := hb.trans f.infinityBits_lt_signWeight
  have hexp : f.expField b ≠ f.expMax := by
    rw [f.expField_of_lt hlt]
    exact ((Nat.div_lt_iff_lt_mul (Nat.two_pow_pos _)).mpr hb).ne
  have hsign : b / f.signWeight = 0 := Nat.div_eq_of_lt hlt
  simp only [FloatFormat.value, FloatFormat.units, if_neg hexp, hsign]
  split <;> rfl

/-! ## Which values round to at most a given pattern -/

/-- The value lies below the end of the place it is rounded in. -/
theorem FloatFormat.lt_unitShift (f : FloatFormat) (num : Nat) (hden : 0 < den) :
    num * 2 ^ f.scale < 2 * 2 ^ f.fracBits * (den * 2 ^ f.unitShift num den) := by
  have hpow : num * 2 ^ f.scale / den < 2 ^ (1 + f.fracBits + f.unitShift num den) :=
    Nat.lt_log2_self.trans_le (Nat.pow_le_pow_right (by decide) (by unfold FloatFormat.unitShift; omega))
  rw [Nat.div_lt_iff_lt_mul hden, pow_add, pow_add] at hpow
  linarith

/-- The place a value is rounded in is the lowest one or begins at the value or below. -/
theorem FloatFormat.unitShift_le (f : FloatFormat) (num : Nat) (hden : 0 < den) :
    f.unitShift num den = 0 ∨ 2 ^ f.fracBits * (den * 2 ^ f.unitShift num den) ≤ num * 2 ^ f.scale := by
  refine (Nat.eq_zero_or_pos _).imp_right fun hpos => ?_
  have hlog : (num * 2 ^ f.scale / den).log2 = f.fracBits + f.unitShift num den := by
    unfold FloatFormat.unitShift at *; omega
  have hne : num * 2 ^ f.scale / den ≠ 0 := fun hzero => by
    rw [hzero, Nat.log2_zero] at hlog
    omega
  have hpow := Nat.log2_self_le hne
  rw [hlog, Nat.le_div_iff_mul_le hden, pow_add] at hpow
  linarith

theorem FloatFormat.roundMagnitude_eq_min (f : FloatFormat) (num den : Nat) : f.roundMagnitude num den =
    min (f.unitShift num den * 2 ^ f.fracBits +
      roundQuotient (num * 2 ^ f.scale) (den * 2 ^ f.unitShift num den)) f.infinityBits := rfl

/-- A finite result stands for the rounded quotient in units of the place it is rounded in. -/
theorem FloatFormat.units_roundMagnitude (hden : 0 < den) (h : f.roundMagnitude num den < f.infinityBits) :
    f.units (f.roundMagnitude num den) =
      roundQuotient (num * 2 ^ f.scale) (den * 2 ^ f.unitShift num den) * 2 ^ f.unitShift num den := by
  have hunit : 0 < den * 2 ^ f.unitShift num den := Nat.mul_pos hden (Nat.two_pow_pos _)
  have heq := f.roundMagnitude_eq_min num den
  exact FloatFormat.Place.units ⟨by omega, roundQuotient_le hunit (f.lt_unitShift num hden).le,
    (f.unitShift_le num hden).imp_right (le_roundQuotient hunit)⟩ (h.trans f.infinityBits_lt_signWeight)

/-- The patterns of a lower place, and their values, end where the place `2^k` begins. -/
theorem FloatFormat.Place.succ_le_of_lt {e : Nat} (h : f.Place b e q) (hq : q < 2 * 2 ^ f.fracBits) (hek : e < k) :
    b + 1 ≤ k * 2 ^ f.fracBits + 2 ^ f.fracBits ∧ (q + 1) * 2 ^ e ≤ 2 ^ f.fracBits * 2 ^ k := by
  have hpattern : (e + 1) * 2 ^ f.fracBits ≤ k * 2 ^ f.fracBits := Nat.mul_le_mul_right _ hek
  have hadd := h.eq_add
  rw [Nat.succ_mul] at hpattern
  refine ⟨by omega, ?_⟩
  calc (q + 1) * 2 ^ e
    _ ≤ 2 * 2 ^ f.fracBits * 2 ^ e := Nat.mul_le_mul_right _ hq
    _ = 2 ^ f.fracBits * 2 ^ (e + 1) := by ring
    _ ≤ 2 ^ f.fracBits * 2 ^ k := Nat.mul_le_mul_left _ (Nat.pow_le_pow_right (by decide) hek)

/-- The patterns of a higher place, and their values, begin where the place `2^k` ends. -/
theorem FloatFormat.Place.le_of_gt {e : Nat} (h : f.Place b e q) (hke : k < e) :
    k * 2 ^ f.fracBits + 2 * 2 ^ f.fracBits ≤ b ∧ 2 * 2 ^ f.fracBits * 2 ^ k ≤ q * 2 ^ e := by
  have hpattern : (k + 1) * 2 ^ f.fracBits ≤ e * 2 ^ f.fracBits := Nat.mul_le_mul_right _ hke
  have hadd := h.eq_add
  have hfull := h.normal.resolve_left (Nat.ne_zero_of_lt hke)
  rw [Nat.succ_mul] at hpattern
  refine ⟨by omega, ?_⟩
  calc 2 * 2 ^ f.fracBits * 2 ^ k
    _ = 2 ^ f.fracBits * 2 ^ (k + 1) := by ring
    _ ≤ q * 2 ^ e := Nat.mul_le_mul hfull (Nat.pow_le_pow_right (by decide) hke)

/-- Two neighbouring patterns have their midpoint at half the sum of their values: what lies below it, or on it when `b`
is even, rounds to at most `b`. -/
theorem FloatFormat.roundMagnitude_le_iff (hf : f.WellSized) (hden : 0 < den) (hb : b < f.infinityBits) :
    f.roundMagnitude num den ≤ b ↔
      2 * (num * 2 ^ f.scale) < (f.units b + f.units (b + 1)) * den ∨
        (2 * (num * 2 ^ f.scale) = (f.units b + f.units (b + 1)) * den ∧ b % 2 = 0) := by
  have hlt : b < f.signWeight := hb.trans f.infinityBits_lt_signWeight
  have hlt' : b + 1 < f.signWeight := (Nat.succ_le_of_lt hb).trans_lt f.infinityBits_lt_signWeight
  have hbelow := f.lt_unitShift num hden
  have habove := f.unitShift_le num hden
  rw [f.roundMagnitude_eq_min, min_le_iff, or_iff_left (Nat.not_le.mpr hb)]
  generalize f.unitShift num den = k at *
  have hunit : 0 < den * 2 ^ k := Nat.mul_pos hden (Nat.two_pow_pos k)
  obtain ⟨e, q, hplace, hq⟩ := f.exists_place b
  rw [hplace.units hlt, (hplace.succ hq).units hlt']
  rcases Nat.lt_trichotomy e k with hek | rfl | hke
  · -- `num / den` lies in a higher place than `b`
    have hfull := habove.resolve_left (Nat.ne_zero_of_lt hek)
    obtain ⟨hpattern, hvalue⟩ := hplace.succ_le_of_lt hq hek
    have hvalue := Nat.mul_le_mul_right den hvalue
    have hsig := le_roundQuotient hunit hfull
    have hgap : 0 < 2 ^ e * den := Nat.mul_pos (Nat.two_pow_pos e) hden
    exact iff_of_false (by omega) (not_or.mpr ⟨by linarith, fun h => by linarith [h.1]⟩)
  · -- both lie in the same place, where rounding is that of the quotient
    have hparity : b % 2 = q % 2 := by
      obtain ⟨w, hw⟩ := hf.two_dvd
      rw [hplace.eq_add, hw, Nat.mul_left_comm, Nat.mul_add_mod]
    have hmid : (q * 2 ^ e + (q + 1) * 2 ^ e) * den = (2 * q + 1) * (den * 2 ^ e) := by ring
    rw [hmid, hparity, ← roundQuotient_le_iff hunit, hplace.eq_add, Nat.add_le_add_iff_left]
  · -- `num / den` lies in a lower place than `b`
    obtain ⟨hpattern, hvalue⟩ := hplace.le_of_gt hke
    have hvalue := Nat.mul_le_mul_right den hvalue
    have hsig := roundQuotient_le hunit hbelow.le
    have hgap : 0 < 2 ^ e * den := Nat.mul_pos (Nat.two_pow_pos e) hden
    exact iff_of_true (by omega) (.inl (by linarith))

theorem FloatFormat.roundMagnitude_le_infinity (f : FloatFormat) (num den : Nat) :
    f.roundMagnitude num den ≤ f.infinityBits := Nat.min_le_right _ _

/-- A value of at most `b`'s rounds to at most `b`. -/
theorem FloatFormat.roundMagnitude_le (hf : f.WellSized) (hden : 0 < den) (hb : b < f.infinityBits)
    (h : num * 2 ^ f.scale ≤ f.units b * den) : f.roundMagnitude num den ≤ b := by
  have hstep := f.units_lt_units_succ ((Nat.succ_le_of_lt hb).trans_lt f.infinityBits_lt_signWeight)
  have hgap := Nat.mul_lt_mul_of_pos_right hstep hden
  refine (f.roundMagnitude_le_iff hf hden hb).mpr (.inl ?_)
  rw [Nat.add_mul]
  omega

/-- A value of at least `b`'s rounds to at least `b`. -/
theorem FloatFormat.le_roundMagnitude (hf : f.WellSized) (hden : 0 < den) (hb : b ≤ f.infinityBits)
    (h : f.units b * den ≤ num * 2 ^ f.scale) : b ≤ f.roundMagnitude num den := by
  cases b with
  | zero => exact Nat.zero_le _
  | succ b =>
    have hstep := f.units_lt_units_succ (hb.trans_lt f.infinityBits_lt_signWeight)
    have hgap := Nat.mul_lt_mul_of_pos_right hstep hden
    refine Nat.lt_of_not_le fun hle => ?_
    rw [f.roundMagnitude_le_iff hf hden hb, Nat.add_mul] at hle
    omega

/-- The value of a finite pattern is not rounded. -/
theorem FloatFormat.roundMagnitude_eq (hf : f.WellSized) (hden : 0 < den) (hb : b < f.infinityBits)
    (h : num * 2 ^ f.scale = f.units b * den) : f.roundMagnitude num den = b :=
  Nat.le_antisymm (f.roundMagnitude_le hf hden hb h.le) (f.le_roundMagnitude hf hden hb.le h.ge)

/-- Larger values round to larger patterns. -/
theorem FloatFormat.roundMagnitude_mono (hf : f.WellSized) (hden : 0 < den) (h : num ≤ num') :
    f.roundMagnitude num den ≤ f.roundMagnitude num' den := by
  rcases Nat.lt_or_eq_of_le (f.roundMagnitude_le_infinity num' den) with hlt | heq
  · have hself := (f.roundMagnitude_le_iff hf hden hlt).mp le_rfl
    have hscaled := Nat.mul_le_mul_right (2 ^ f.scale) h
    rw [f.roundMagnitude_le_iff hf hden hlt]
    omega
  · rw [heq]
    exact f.roundMagnitude_le_infinity num den

/-- The midpoint below the power of two with exponent field `i + 2` is a quarter of a unit of that place away, and a
value on it rounds up, for the pattern below is odd. -/
theorem FloatFormat.power_le_roundMagnitude_iff (hf : f.WellSized) (hden : 0 < den) {i : Nat}
    (hi : i + 2 ≤ f.expMax) : (i + 2) * 2 ^ f.fracBits ≤ f.roundMagnitude num den ↔
      (4 * 2 ^ f.fracBits - 1) * 2 ^ i * den ≤ 2 * (num * 2 ^ f.scale) := by
  obtain ⟨w, hw⟩ := hf.two_dvd
  have hpos : 0 < 2 ^ f.fracBits := Nat.two_pow_pos _
  have hinf : (i + 2) * 2 ^ f.fracBits ≤ f.infinityBits := Nat.mul_le_mul_right _ hi
  have hbelow : f.Place ((i + 2) * 2 ^ f.fracBits - 1) i (2 * 2 ^ f.fracBits - 1) :=
    ⟨by rw [Nat.add_mul]; omega, Nat.sub_le _ _, .inr (by omega)⟩
  have hodd : ((i + 2) * 2 ^ f.fracBits - 1) % 2 = 1 := by
    rw [hw, Nat.mul_left_comm] at hinf ⊢
    have : 0 < (i + 2) * w := Nat.mul_pos (by omega) (by omega)
    omega
  have hlt : (i + 2) * 2 ^ f.fracBits - 1 < f.infinityBits := by
    have : 0 < (i + 2) * 2 ^ f.fracBits := Nat.mul_pos (by omega) hpos
    omega
  have hweight := f.infinityBits_lt_signWeight
  have hmid : f.units ((i + 2) * 2 ^ f.fracBits - 1) + f.units ((i + 2) * 2 ^ f.fracBits - 1 + 1) =
      (4 * 2 ^ f.fracBits - 1) * 2 ^ i := by
    rw [hbelow.units (by omega), (hbelow.succ (by omega)).units (by omega), ← Nat.add_mul]
    congr 1
    omega
  rw [← not_iff_not, Nat.not_le, Nat.not_le, ← hmid, Nat.lt_iff_le_pred (Nat.mul_pos (by omega) hpos),
    f.roundMagnitude_le_iff hf hden hlt, hodd]
  exact or_iff_left (by simp)

/-! ## Rounding to nearest -/

/-- The value lies no further up than halfway to any larger pattern, and halfway only when the rounded one is even. -/
theorem FloatFormat.le_midpoint_of_roundMagnitude_lt (hf : f.WellSized) (hden : 0 < den)
    (hlt : f.roundMagnitude num den < b) (hb : b < f.infinityBits) :
    2 * (num * 2 ^ f.scale) ≤ f.units (f.roundMagnitude num den) * den + f.units b * den ∧
      (2 * (num * 2 ^ f.scale) = f.units (f.roundMagnitude num den) * den + f.units b * den →
        f.roundMagnitude num den % 2 = 0) := by
  have hself := (f.roundMagnitude_le_iff hf hden (hlt.trans hb)).mp le_rfl
  have hnext := Nat.mul_le_mul_right den
    (f.units_le_units (a := _ + 1) hlt (hb.trans f.infinityBits_lt_signWeight))
  rw [Nat.add_mul] at hself
  omega

/-- The value lies no further down than halfway to any smaller pattern, and halfway only when the rounded one is
even. -/
theorem FloatFormat.midpoint_le_of_lt_roundMagnitude (hf : f.WellSized) (hden : 0 < den)
    (hlt : b < f.roundMagnitude num den) :
    f.units b * den + f.units (f.roundMagnitude num den) * den ≤ 2 * (num * 2 ^ f.scale) ∧
      (f.units b * den + f.units (f.roundMagnitude num den) * den = 2 * (num * 2 ^ f.scale) →
        f.roundMagnitude num den % 2 = 0) := by
  obtain ⟨r, hr⟩ := Nat.exists_eq_add_one_of_ne_zero (Nat.ne_zero_of_lt hlt)
  have hinf := f.roundMagnitude_le_infinity num den
  have hiff := f.roundMagnitude_le_iff hf hden (num := num) (b := r) (by omega)
  rw [hr] at hlt hinf hiff ⊢
  have hbelow := Nat.mul_le_mul_right den
    (f.units_le_units (Nat.le_of_lt_succ hlt) ((Nat.lt_of_succ_le hinf).trans f.infinityBits_lt_signWeight))
  rw [Nat.add_mul] at hiff
  omega

theorem abs_sub_le_abs_sub_of_midpoint {v r b : Int} (habove : r < b → 2 * v ≤ r + b)
    (hbelow : b < r → b + r ≤ 2 * v) : |r - v| ≤ |b - v| := by
  rcases abs_cases (r - v) with ⟨hr, _⟩ | ⟨hr, _⟩ <;> rcases abs_cases (b - v) with ⟨hb, _⟩ | ⟨hb, _⟩ <;> omega

/-- No finite pattern's value is nearer than the rounded one's, and where another is as near the rounded pattern is
even (spec R135). -/
theorem FloatFormat.roundMagnitude_nearest (hf : f.WellSized) (hden : 0 < den)
    (hround : f.roundMagnitude num den < f.infinityBits) (hb : b < f.infinityBits) :
    |(f.units (f.roundMagnitude num den) * den : Int) - num * 2 ^ f.scale| ≤
        |(f.units b * den : Int) - num * 2 ^ f.scale| ∧
      (|(f.units (f.roundMagnitude num den) * den : Int) - num * 2 ^ f.scale| =
          |(f.units b * den : Int) - num * 2 ^ f.scale| →
        f.units b ≠ f.units (f.roundMagnitude num den) → f.roundMagnitude num den % 2 = 0) := by
  have hup := f.le_midpoint_of_roundMagnitude_lt hf hden (num := num) (b := b)
  have hdown := f.midpoint_le_of_lt_roundMagnitude hf hden (num := num) (b := b)
  generalize f.roundMagnitude num den = r at *
  have hscale : (num * 2 ^ f.scale : Int) = (num * 2 ^ f.scale : Nat) := by norm_cast
  rw [hscale, ← Nat.cast_mul, ← Nat.cast_mul]
  rcases Nat.lt_trichotomy b r with hlt | rfl | hgt
  · obtain ⟨hle, heven⟩ := hdown hlt
    have hunits := Nat.mul_lt_mul_of_pos_right (f.units_lt_units hlt (hround.trans f.infinityBits_lt_signWeight)) hden
    refine ⟨abs_sub_le_abs_sub_of_midpoint (by omega) (by omega), fun heq _ => ?_⟩
    exact heven (by rcases abs_eq_abs.mp heq with h | h <;> omega)
  · exact ⟨le_rfl, fun _ hne => absurd rfl hne⟩
  · obtain ⟨hle, heven⟩ := hup hgt hb
    have hunits := Nat.mul_lt_mul_of_pos_right (f.units_lt_units hgt (hb.trans f.infinityBits_lt_signWeight)) hden
    refine ⟨abs_sub_le_abs_sub_of_midpoint (by omega) (by omega), fun heq _ => ?_⟩
    exact heven (by rcases abs_eq_abs.mp heq with h | h <;> omega)

/-- Half a unit above the largest finite value is the least value that rounds to `+infinity` (spec R135). -/
theorem FloatFormat.roundMagnitude_eq_infinity_iff (hf : f.WellSized) (hden : 0 < den) :
    f.roundMagnitude num den = f.infinityBits ↔
      (2 ^ (f.fracBits + 2) - 1) * 2 ^ (f.expMax - 3) * den ≤ num * 2 ^ f.scale := by
  have hmax : 3 ≤ f.expMax :=
    Nat.le_sub_one_of_lt (Nat.pow_le_pow_right (n := 2) (by decide) hf.two_le_expBits)
  obtain ⟨i, hi⟩ := Nat.exists_eq_add_of_le' hmax
  have htop : (i + 1 + 2) * 2 ^ f.fracBits = f.infinityBits := by rw [FloatFormat.infinityBits, hi]
  have hiff := f.power_le_roundMagnitude_iff hf hden (num := num) (i := i + 1) hi.ge
  rw [htop, pow_succ, ← Nat.mul_assoc, Nat.mul_right_comm, Nat.mul_comm 2,
    Nat.mul_le_mul_right_iff (by decide)] at hiff
  rw [hi, Nat.add_sub_cancel, pow_add, Nat.mul_comm _ (2 ^ 2)]
  exact ⟨fun h => hiff.mp h.ge, fun h => Nat.le_antisymm (f.roundMagnitude_le_infinity num den) (hiff.mpr h)⟩

/-- Settles O48: both formats are well sized, and rounding to a well-sized format is to nearest. -/
theorem roundingIsToNearestTiesToEven : Obligations.RoundingIsToNearestTiesToEven := by
  intro f hf num den hden
  have hsized : f.WellSized := by
    rcases List.mem_pair.mp hf with rfl | rfl
    · exact binary64_wellSized
    · exact binary32_wellSized
  exact ⟨fun hround _ => f.roundMagnitude_nearest hsized hden hround, f.roundMagnitude_eq_infinity_iff hsized hden⟩

end Sys2Proof.Machine
end

section
/-! `CVT64` and UNIFORM: the binary64 pattern of an integer, and lowering its exponent field by 63 as the division by
`2^63` (spec R135 to R138). -/

namespace Sys2Proof.Machine

variable {f : FloatFormat} {t t' : Word} {n : Nat}

/-! ## Exact values -/

theorem FloatFormat.bias_pos (hf : f.WellSized) : 0 < f.bias :=
  Nat.sub_pos_of_lt (Nat.one_lt_two_pow (Nat.sub_ne_zero_of_lt hf.two_le_expBits))

theorem FloatFormat.bias_lt_expMax (hf : f.WellSized) : f.bias < f.expMax :=
  Nat.sub_lt_sub_right Nat.one_le_two_pow
    (Nat.pow_lt_pow_right (by decide) (Nat.sub_lt (Nat.zero_lt_of_lt hf.two_le_expBits) Nat.zero_lt_one))

/-- The pattern of 1.0. -/
def FloatFormat.oneBits (f : FloatFormat) : Nat := f.bias * 2 ^ f.fracBits

theorem FloatFormat.oneBits_lt_infinityBits (hf : f.WellSized) : f.oneBits < f.infinityBits :=
  Nat.mul_lt_mul_of_pos_right (f.bias_lt_expMax hf) (Nat.two_pow_pos _)

/-- The pattern of 1.0 stands for as many of the smallest units as make 1. -/
theorem FloatFormat.units_oneBits (hf : f.WellSized) : f.units f.oneBits = 2 ^ f.scale := by
  obtain ⟨k, hk⟩ := Nat.exists_eq_add_one_of_ne_zero (f.bias_pos hf).ne'
  have hplace : f.Place f.oneBits k (2 ^ f.fracBits) :=
    ⟨by rw [FloatFormat.oneBits, hk, Nat.succ_mul], by omega, .inr le_rfl⟩
  rw [hplace.units ((f.oneBits_lt_infinityBits hf).trans f.infinityBits_lt_signWeight), FloatFormat.scale, hk,
    Nat.add_sub_cancel, pow_add, Nat.mul_comm]

theorem infinityBits_binary64 : binary64.infinityBits = 2047 * 2 ^ 52 := rfl

theorem signWeight_binary64 : binary64.signWeight = 2 ^ 63 := by decide

theorem fracBits_binary64 : binary64.fracBits = 52 := rfl

/-! ## `CVT64` -/

/-- The pattern of `CVT64(n)` as a number. -/
theorem cvt64_toNat (n : Nat) : (cvt64 n).toNat = binary64.roundMagnitude n 1 := by
  have hle := binary64.roundMagnitude_le_infinity n 1
  rw [infinityBits_binary64] at hle
  rw [cvt64, BitVec.toNat_ofNat, Nat.mod_eq_of_lt (by omega)]

theorem cvt64_mono {m : Nat} (h : m ≤ n) : (cvt64 m).toNat ≤ (cvt64 n).toNat := by
  rw [cvt64_toNat, cvt64_toNat]
  exact binary64.roundMagnitude_mono binary64_wellSized Nat.one_pos h

theorem units64_one : binary64.units (1023 * 2 ^ 52) = 2 ^ binary64.scale :=
  binary64.units_oneBits binary64_wellSized

/-- The pattern of `2^j`. -/
theorem units64_two_pow {j : Nat} (hj : j ≤ 64) :
    binary64.units ((1023 + j) * 2 ^ 52) = 2 ^ j * 2 ^ binary64.scale := by
  have hlt : 1023 * 2 ^ 52 + j * 2 ^ binary64.fracBits < binary64.signWeight := by
    rw [fracBits_binary64, signWeight_binary64]; omega
  have h := binary64.units_add_exponent (by decide) hlt
  rwa [fracBits_binary64, ← Nat.add_mul, units64_one, Nat.mul_comm (2 ^ _)] at h

@[simp] theorem cvt64_zero : cvt64 0 = 0#64 :=
  BitVec.eq_of_toNat_eq ((cvt64_toNat 0).trans
    (binary64.roundMagnitude_eq binary64_wellSized Nat.one_pos (b := 0) (by decide) (by simp)))

/-- A positive integer is at least 1.0. -/
theorem le_cvt64_of_pos (hn : 0 < n) : 1023 * 2 ^ 52 ≤ (cvt64 n).toNat := by
  rw [cvt64_toNat]
  refine binary64.le_roundMagnitude binary64_wellSized Nat.one_pos (by decide) ?_
  rw [units64_one, Nat.mul_one]
  exact Nat.le_mul_of_pos_left _ hn

/-- An integer of at most `2^j` is converted to at most `2^j`. -/
theorem cvt64_le {j : Nat} (hj : j ≤ 64) (hn : n ≤ 2 ^ j) : (cvt64 n).toNat ≤ (1023 + j) * 2 ^ 52 := by
  have hfinite : (1023 + j) * 2 ^ 52 < binary64.infinityBits := by
    rw [infinityBits_binary64]; omega
  rw [cvt64_toNat]
  refine binary64.roundMagnitude_le binary64_wellSized Nat.one_pos hfinite ?_
  rw [units64_two_pow hj, Nat.mul_one]
  exact Nat.mul_le_mul_right _ hn

/-- `power_le_roundMagnitude_iff` for a power of two from 2 on, in whole numbers. -/
theorem FloatFormat.power_le_roundMagnitude_iff_of_integer (hf : f.WellSized) {den j : Nat} (hden : 0 < den)
    (hj : j + f.scale + 2 ≤ f.expMax) : (j + f.scale + 2) * 2 ^ f.fracBits ≤ f.roundMagnitude n den ↔
      (4 * 2 ^ f.fracBits - 1) * 2 ^ j * den ≤ 2 * n := by
  rw [f.power_le_roundMagnitude_iff hf hden hj, pow_add, ← Nat.mul_assoc, ← Nat.mul_assoc, Nat.mul_right_comm,
    Nat.mul_le_mul_right_iff (Nat.two_pow_pos _)]

/-- The integers from `2^63 - 512` on are converted to at least `2^63` (spec R138). -/
theorem le_cvt64_iff : 1086 * 2 ^ 52 ≤ (cvt64 n).toNat ↔ 2 ^ 63 - 512 ≤ n := by
  have hexp : 10 + binary64.scale + 2 = 1086 := by decide
  have hiff := binary64.power_le_roundMagnitude_iff_of_integer binary64_wellSized Nat.one_pos (n := n) (j := 10)
    (by decide)
  rw [hexp, fracBits_binary64] at hiff
  rw [cvt64_toNat, hiff]
  omega

/-- `2^63 - 1` is above the midpoint below `2^63` (spec R137). -/
theorem cvt64_realDivisor : cvt64 Config.realDivisor = 0x43E0000000000000#64 :=
  BitVec.eq_of_toNat_eq (Nat.le_antisymm (cvt64_le (j := 63) (by decide) (by decide)) (le_cvt64_iff.mpr (by decide)))

theorem cvt64_lt_infinityBits (hn : n < 2 ^ 64) : (cvt64 n).toNat < binary64.infinityBits :=
  (cvt64_le le_rfl hn.le).trans_lt (by decide)

theorem value64_cvt64 (hn : n < 2 ^ 64) :
    value64 (cvt64 n) = .finite false (binary64.units (cvt64 n).toNat) (2 ^ binary64.scale) :=
  binary64.value_of_lt (cvt64_lt_infinityBits hn)

theorem log2_mul_two_pow (hn : n ≠ 0) (s : Nat) : (n * 2 ^ s).log2 = n.log2 + s := by
  rw [Nat.log2_eq_log_two, Nat.log2_eq_log_two]
  induction s with
  | zero => rw [pow_zero, Nat.mul_one, Nat.add_zero]
  | succ s ih =>
    rw [pow_succ, ← Nat.mul_assoc, Nat.log_mul_base (by decide) (Nat.mul_ne_zero hn (Nat.two_pow_pos s).ne'), ih,
      Nat.add_assoc]

/-- Rounding a multiple of `2^s` to a multiple of `2^h` leaves it alone where `h` is at most `s`, and otherwise rounds
what the `2^s` multiplies. -/
theorem roundQuotient_two_pow (n s h : Nat) :
    roundQuotient (n * 2 ^ s) (2 ^ h) * 2 ^ h = roundQuotient n (2 ^ (h - s)) * 2 ^ (h - s) * 2 ^ s := by
  rcases Nat.le_total s h with hle | hle
  · obtain ⟨j, rfl⟩ := Nat.exists_eq_add_of_le' hle
    rw [Nat.add_sub_cancel, pow_add, roundQuotient_mul_right (Nat.two_pow_pos j) (Nat.two_pow_pos s), Nat.mul_assoc]
  · obtain ⟨j, rfl⟩ := Nat.exists_eq_add_of_le' hle
    have hone : roundQuotient n 1 = n := by
      simpa using roundQuotient_mul_self (n := n) Nat.one_pos
    rw [Nat.sub_eq_zero_of_le hle, pow_add, ← Nat.mul_assoc, roundQuotient_mul_self (Nat.two_pow_pos h), pow_zero,
      hone, Nat.mul_one]
    ring

/-- `CVT64(n)` is `n` rounded to its 53 leading bits (spec R137). -/
theorem units_cvt64 (hn : n < 2 ^ 64) :
    binary64.units (cvt64 n).toNat = roundQuotient n (2 ^ (n.log2 - 52)) * 2 ^ (n.log2 - 52) * 2 ^ binary64.scale := by
  rcases Nat.eq_zero_or_pos n with rfl | hpos
  · rw [cvt64_zero, BitVec.toNat_zero, FloatFormat.units_zero]
    simp [roundQuotient]
  · have hfinite := cvt64_lt_infinityBits hn
    have hshift : binary64.unitShift n 1 = n.log2 + binary64.scale - 52 := by
      rw [FloatFormat.unitShift, Nat.div_one, log2_mul_two_pow hpos.ne', fracBits_binary64]
    have hsub : n.log2 + binary64.scale - 52 - binary64.scale = n.log2 - 52 := by omega
    rw [cvt64_toNat] at hfinite ⊢
    rw [binary64.units_roundMagnitude Nat.one_pos hfinite, Nat.one_mul, hshift, roundQuotient_two_pow, hsub]

/-! ## The bits of UNIFORM -/

theorem sel63_lt (t : Word) : sel63 t < 2 ^ 63 := by
  have := t.isLt
  rw [sel63_eq_div]
  omega

/-- Lowering the exponent field by 63; 0 stays 0 (spec R137). -/
theorem uniformBits_toNat (t : Word) : (uniformBits t).toNat = (cvt64 (sel63 t)).toNat - 63 * 2 ^ 52 := by
  rw [uniformBits]
  split
  · next hzero => rw [hzero, cvt64_zero]; rfl
  · next hne =>
    have hle := le_cvt64_of_pos (Nat.pos_of_ne_zero hne)
    have hshift : (63#64 <<< 52 : Word).toNat = 63 * 2 ^ 52 := by decide
    rw [BitVec.toNat_sub_of_le (by rw [BitVec.le_def, hshift]; omega), hshift]

theorem uniformBits_mono (h : t.toNat ≤ t'.toNat) : (uniformBits t).toNat ≤ (uniformBits t').toNat := by
  have hle := cvt64_mono (Nat.div_le_div_right (c := 2) h)
  rw [← sel63_eq_div, ← sel63_eq_div] at hle
  rw [uniformBits_toNat, uniformBits_toNat]
  omega

/-- `u` is 0, or at least `2^-63` (spec R137). -/
theorem le_uniformBits_of_ne_zero (h : sel63 t ≠ 0) : 960 * 2 ^ 52 ≤ (uniformBits t).toNat := by
  have hle := le_cvt64_of_pos (Nat.pos_of_ne_zero h)
  rw [uniformBits_toNat]
  omega

theorem uniformBits_eq_zero_iff_sel63 : uniformBits t = 0#64 ↔ sel63 t = 0 := by
  refine ⟨fun h => by_contra fun hne => ?_, fun h => if_pos h⟩
  have hle := le_uniformBits_of_ne_zero hne
  rw [h] at hle
  exact absurd hle (by decide)

theorem uniformBits_eq_zero_iff : uniformBits t = 0#64 ↔ t = 0#64 ∨ t = 1#64 := by
  rw [uniformBits_eq_zero_iff_sel63, sel63_eq_div, ← BitVec.toNat_inj, ← BitVec.toNat_inj, BitVec.toNat_ofNat,
    BitVec.toNat_ofNat]
  omega

/-- `u` is at most 1.0 (spec R138). -/
theorem uniformBits_le_one (t : Word) : (uniformBits t).toNat ≤ 1023 * 2 ^ 52 := by
  have hle := cvt64_le (j := 63) (by decide) (sel63_lt t).le
  rw [uniformBits_toNat]
  omega

/-- `u` is 1.0 exactly for the tempered words from `0xFFFFFFFFFFFFFC00` on (spec R138). -/
theorem one_le_uniformBits_iff : 1023 * 2 ^ 52 ≤ (uniformBits t).toNat ↔ 0xFFFFFFFFFFFFFC00 ≤ t.toNat := by
  have hiff := le_cvt64_iff (n := sel63 t)
  have hlt := t.isLt
  rw [sel63_eq_div] at hiff
  rw [uniformBits_toNat, sel63_eq_div]
  omega

/-- The last word that does not give 1.0 gives the pattern below it (spec R138). -/
theorem le_uniformBits_below_one : 1023 * 2 ^ 52 - 1 ≤ (uniformBits 0xFFFFFFFFFFFFFBFF#64).toNat := by
  have hplace : binary64.Place (1086 * 2 ^ 52 - 1) (10 + binary64.scale) (2 ^ 53 - 1) :=
    ⟨by decide, by decide, .inr (by decide)⟩
  have hunits := hplace.units (by decide)
  have hle : 1086 * 2 ^ 52 - 1 ≤ (cvt64 (2 ^ 63 - 513)).toNat := by
    rw [cvt64_toNat]
    refine binary64.le_roundMagnitude binary64_wellSized Nat.one_pos (by decide) ?_
    rw [hunits, Nat.mul_one, pow_add 2 10 binary64.scale, ← Nat.mul_assoc]
    exact Nat.mul_le_mul_right _ (by decide)
  have hsel : sel63 0xFFFFFFFFFFFFFBFF#64 = 2 ^ 63 - 513 := by decide
  rw [uniformBits_toNat, hsel]
  omega

/-- Settles O43: both ends follow from the words that give 1.0, and `0x3FEFFFFFFFFFFFFF` is the pattern below it. -/
theorem uniformReachesOneExactlyAtTheTop : Obligations.UniformReachesOneExactlyAtTheTop := by
  have hone (t : Word) := one_le_uniformBits_iff (t := t)
  refine fun t => ⟨fun hge => ?_, fun hlt => ?_, ?_⟩
  · exact BitVec.eq_of_toNat_eq (Nat.le_antisymm (uniformBits_le_one t) ((hone t).mpr hge))
  · exact Nat.le_of_lt_succ (Nat.lt_of_not_le fun hle => Nat.not_le_of_lt hlt ((hone t).mp hle))
  · have hlt : ¬ 1023 * 2 ^ 52 ≤ (uniformBits 0xFFFFFFFFFFFFFBFF#64).toNat := mt (hone _).mp (by decide)
    exact BitVec.eq_of_toNat_eq (Nat.le_antisymm (Nat.le_of_lt_succ (Nat.lt_of_not_le hlt)) le_uniformBits_below_one)

/-- `u` times `2^63` is `CVT64(t >> 1)` (spec R137). -/
theorem units_uniformBits (t : Word) :
    binary64.units (uniformBits t).toNat * 2 ^ 63 = binary64.units (cvt64 (sel63 t)).toNat := by
  by_cases hzero : sel63 t = 0
  · rw [uniformBits_eq_zero_iff_sel63.mpr hzero, hzero, cvt64_zero, BitVec.toNat_zero, FloatFormat.units_zero,
      Nat.zero_mul]
  · have hlow := le_cvt64_of_pos (Nat.pos_of_ne_zero hzero)
    have hhigh := cvt64_le (j := 63) (by decide) (sel63_lt t).le
    have hsub : (cvt64 (sel63 t)).toNat = (uniformBits t).toNat + 63 * 2 ^ 52 := by
      rw [uniformBits_toNat]
      omega
    rw [hsub] at hlow hhigh ⊢
    refine (binary64.units_add_exponent ?_ ?_).symm
    · rw [fracBits_binary64]; omega
    · rw [fracBits_binary64, signWeight_binary64]; omega

theorem value64_uniformBits (t : Word) :
    value64 (uniformBits t) = .finite false (binary64.units (uniformBits t).toNat) (2 ^ binary64.scale) :=
  binary64.value_of_lt ((uniformBits_le_one t).trans_lt (by decide))

/-- Settles O42: `CVT64` rounds to 53 bits, and both sides of the scaling are counted in the same units. -/
theorem uniformIsExactScaling : Obligations.UniformIsExactScaling := by
  have hpos : 0 < 2 ^ binary64.scale := Nat.two_pow_pos _
  refine ⟨cvt64_realDivisor, fun n hn => ⟨_, _, hpos, value64_cvt64 hn, units_cvt64 hn⟩,
    fun t => ⟨_, _, _, _, hpos, hpos, value64_uniformBits t, value64_cvt64 ((sel63_lt t).trans (by decide)), ?_⟩,
    fun t => uniformBits_eq_zero_iff, fun t t' => uniformBits_mono⟩
  rw [units_uniformBits]

end Sys2Proof.Machine
end

section
/-! Operations on patterns: the NaN of a NaN result, products with a finite, an infinite and a NaN bound in a format of
any size, and from them the two multiplications and the narrowing (spec R135, R142). -/

namespace Sys2Proof.Machine

variable {f : FloatFormat} {u b free num den : Nat} {v : FloatValue}

/-! ## The pattern of a result -/

theorem FloatFormat.signBits_eq_mul (f : FloatFormat) (neg : Bool) :
    f.signBits neg = 2 ^ f.fracBits * (2 ^ f.expBits * neg.toNat) := by
  rw [← Nat.mul_assoc, ← f.signWeight_eq_mul]
  cases neg <;> simp [FloatFormat.signBits]

theorem FloatFormat.signBits_le (f : FloatFormat) (neg : Bool) : f.signBits neg ≤ f.signWeight := by
  cases neg <;> simp [FloatFormat.signBits]

/-- A NaN is a sign, the exponent field of an infinity and a payload that is not 0. -/
theorem FloatFormat.exists_nanBits_eq (hf : f.WellSized) (free : Nat) : ∃ neg payload, 0 < payload ∧
    payload < 2 ^ f.fracBits ∧ f.nanBits free = f.signBits neg + f.infinityBits + payload := by
  refine ⟨_, _, ?_, ?_, rfl⟩ <;> split
  · exact Nat.two_pow_pos _
  · exact Nat.pos_of_ne_zero ‹_›
  · exact Nat.pow_lt_pow_right (by decide) (Nat.sub_lt hf.one_le_fracBits Nat.zero_lt_one)
  · exact Nat.mod_lt _ (Nat.two_pow_pos _)

theorem FloatFormat.value_nanBits (hf : f.WellSized) (free : Nat) : f.value (f.nanBits free) = .nan := by
  obtain ⟨neg, payload, hpos, hlt, heq⟩ := f.exists_nanBits_eq hf free
  have hfields : f.nanBits free = 2 ^ f.fracBits * (2 ^ f.expBits * neg.toNat + f.expMax) + payload := by
    rw [heq, f.signBits_eq_mul, FloatFormat.infinityBits]
    ring
  have hmax : f.expMax < 2 ^ f.expBits := Nat.sub_lt (Nat.two_pow_pos _) Nat.one_pos
  have hexp : f.expField (f.nanBits free) = f.expMax := by
    rw [FloatFormat.expField, hfields, Nat.mul_add_div (Nat.two_pow_pos _), Nat.div_eq_of_lt hlt, Nat.add_zero,
      Nat.mul_add_mod, Nat.mod_eq_of_lt hmax]
  have hfrac : f.fracField (f.nanBits free) = payload := by
    rw [FloatFormat.fracField, hfields, Nat.mul_add_mod, Nat.mod_eq_of_lt hlt]
  simp only [FloatFormat.value, hexp, hfrac, if_neg hpos.ne', if_true]

/-- A result is a pattern of its format. -/
theorem FloatFormat.round_lt (hf : f.WellSized) (free : Nat) (v : FloatValue) : f.round free v < 2 * f.signWeight := by
  have hweight := f.signWeight_eq_add
  have hinf := f.infinityBits_lt_signWeight
  cases v with
  | nan =>
    obtain ⟨neg, payload, -, hlt, heq⟩ := f.exists_nanBits_eq hf free
    have := f.signBits_le neg
    rw [FloatFormat.round]
    omega
  | infinity neg =>
    have := f.signBits_le neg
    rw [FloatFormat.round]
    omega
  | finite neg num den =>
    have := f.signBits_le neg
    have := f.roundMagnitude_le_infinity num den
    rw [FloatFormat.round]
    omega

theorem FloatFormat.round_finite_false (f : FloatFormat) (free num den : Nat) :
    f.round free (.finite false num den) = f.roundMagnitude num den := Nat.zero_add _

/-- Only a NaN result depends on which NaN is free. -/
theorem FloatFormat.round_congr (f : FloatFormat) (hv : v ≠ .nan) (free free' : Nat) :
    f.round free v = f.round free' v := by
  cases v with
  | nan => exact absurd rfl hv
  | infinity | finite => rfl

/-! ## Products -/

/-- The product of two patterns, rounded to their format. -/
def FloatFormat.mul (f : FloatFormat) (free a b : Nat) : Nat := f.round free (mulValue (f.value a) (f.value b))

theorem FloatFormat.mul_of_finite (hu : u ≤ f.oneBits) (hf : f.WellSized) (hb : b < f.infinityBits) :
    f.mul free u b = f.roundMagnitude (f.units u * f.units b) (2 ^ f.scale * 2 ^ f.scale) := by
  rw [FloatFormat.mul, f.value_of_lt (hu.trans_lt (f.oneBits_lt_infinityBits hf)), f.value_of_lt hb]
  exact f.round_finite_false _ _ _

theorem FloatFormat.units_le_of_le_oneBits (hf : f.WellSized) (hu : u ≤ f.oneBits) : f.units u ≤ 2 ^ f.scale := by
  rw [← f.units_oneBits hf]
  exact f.units_le_units hu ((f.oneBits_lt_infinityBits hf).trans f.infinityBits_lt_signWeight)

/-- A factor of at most 1.0 makes no finite bound larger (spec R142). -/
theorem FloatFormat.mul_le (hf : f.WellSized) (hu : u ≤ f.oneBits) (hb : b < f.infinityBits) : f.mul free u b ≤ b := by
  rw [f.mul_of_finite hu hf hb]
  refine f.roundMagnitude_le hf (by positivity) hb ?_
  have hle := f.units_le_of_le_oneBits hf hu
  calc f.units u * f.units b * 2 ^ f.scale
    _ ≤ 2 ^ f.scale * f.units b * 2 ^ f.scale := by gcongr
    _ = f.units b * (2 ^ f.scale * 2 ^ f.scale) := by ring

/-- A factor of 1.0 leaves a finite bound as it is (spec R142). -/
theorem FloatFormat.oneBits_mul (hf : f.WellSized) (hb : b < f.infinityBits) : f.mul free f.oneBits b = b := by
  rw [f.mul_of_finite le_rfl hf hb, f.units_oneBits hf]
  refine f.roundMagnitude_eq hf (by positivity) hb ?_
  ring

theorem FloatFormat.value_infinityBits (f : FloatFormat) : f.value f.infinityBits = .infinity false := by
  have hlt := f.infinityBits_lt_signWeight
  have hexp : f.expField f.infinityBits = f.expMax := by
    rw [f.expField_of_lt hlt, FloatFormat.infinityBits, Nat.mul_div_cancel _ (Nat.two_pow_pos _)]
  have hfrac : f.fracField f.infinityBits = 0 := Nat.mul_mod_left _ _
  simp [FloatFormat.value, hexp, hfrac, Nat.div_eq_of_lt hlt]

/-- A positive factor leaves `+infinity` as it is (spec R142). -/
theorem FloatFormat.mul_infinityBits (hpos : 0 < u) (hu : u < f.infinityBits) :
    f.mul free u f.infinityBits = f.infinityBits := by
  have hunits := f.units_lt_units hpos (hu.trans f.infinityBits_lt_signWeight)
  rw [f.units_zero] at hunits
  rw [FloatFormat.mul, f.value_of_lt hu, f.value_infinityBits, mulValue, if_neg hunits.ne']
  exact Nat.zero_add _

/-- `0 x infinity` is a NaN (spec R142). -/
theorem FloatFormat.value_zero_mul_infinityBits (hf : f.WellSized) : f.value (f.mul free 0 f.infinityBits) = .nan := by
  have hzero := (Nat.zero_le _).trans_lt (f.oneBits_lt_infinityBits hf)
  rw [FloatFormat.mul, f.value_of_lt hzero, f.value_infinityBits, mulValue, if_pos f.units_zero]
  exact f.value_nanBits hf free

theorem mulValue_nan (v : FloatValue) : mulValue v .nan = .nan := by
  cases v <;> rfl

/-- A NaN bound gives a NaN (spec R142). -/
theorem FloatFormat.value_mul_of_nan (hf : f.WellSized) (h : f.value b = .nan) : f.value (f.mul free u b) = .nan := by
  rw [FloatFormat.mul, h, mulValue_nan]
  exact f.value_nanBits hf free

/-- The special operands of a product whose first factor is at most 1.0 (spec R142). -/
theorem FloatFormat.mul_special (hf : f.WellSized) (hu : u ≤ f.oneBits) (free b : Nat) :
    (b < f.infinityBits → f.mul free u b ≤ b ∧ (u = f.oneBits → f.mul free u b = b)) ∧
    (b = f.infinityBits → (u ≠ 0 → f.mul free u b = f.infinityBits) ∧ (u = 0 → f.value (f.mul free u b) = .nan)) ∧
    (f.value b = .nan → f.value (f.mul free u b) = .nan) := by
  refine ⟨fun hb => ⟨f.mul_le hf hu hb, ?_⟩, ?_, f.value_mul_of_nan hf⟩
  · rintro rfl
    exact f.oneBits_mul hf hb
  · rintro rfl
    refine ⟨fun hne => f.mul_infinityBits (Nat.pos_of_ne_zero hne) (hu.trans_lt (f.oneBits_lt_infinityBits hf)), ?_⟩
    rintro rfl
    exact f.value_zero_mul_infinityBits hf

/-! ## The operations of binary64 and binary32 -/

theorem round64_toNat (free : Word) (v : FloatValue) : (round64 free v).toNat = binary64.round free.toNat v := by
  have h := binary64.round_lt binary64_wellSized free.toNat v
  rw [signWeight_binary64] at h
  rw [round64, BitVec.toNat_ofNat, Nat.mod_eq_of_lt (by omega)]

theorem signWeight_binary32 : binary32.signWeight = 2 ^ 31 := by decide

theorem round32_toNat (free : BitVec 32) (v : FloatValue) :
    (round32 free v).toNat = binary32.round free.toNat v := by
  have h := binary32.round_lt binary32_wellSized free.toNat v
  rw [signWeight_binary32] at h
  rw [round32, BitVec.toNat_ofNat, Nat.mod_eq_of_lt (by omega)]

theorem mul64_toNat (free : Word) (a b : F64) : (mul64 free a b).toNat = binary64.mul free.toNat a.toNat b.toNat :=
  round64_toNat _ _

theorem mul32_toNat (free : BitVec 32) (a b : F32) :
    (mul32 free a b).toNat = binary32.mul free.toNat a.toNat b.toNat :=
  round32_toNat _ _

theorem value64_round64_nan (free : Word) : value64 (round64 free .nan) = .nan := by
  rw [value64, round64_toNat]
  exact binary64.value_nanBits binary64_wellSized _

theorem value32_round32_nan (free : BitVec 32) : value32 (round32 free .nan) = .nan := by
  rw [value32, round32_toNat]
  exact binary32.value_nanBits binary32_wellSized _

theorem round64_congr (hv : v ≠ .nan) (free free' : Word) : round64 free v = round64 free' v :=
  congrArg (BitVec.ofNat 64) (binary64.round_congr hv _ _)

theorem round32_congr (hv : v ≠ .nan) (free free' : BitVec 32) : round32 free v = round32 free' v :=
  congrArg (BitVec.ofNat 32) (binary32.round_congr hv _ _)

end Sys2Proof.Machine
end

section
/-! The commands UNIFORM, RANDDOUBLE and RANDFLOAT: what they answer on a seeded engine, which bounds they reject, and
the special operands of their products (spec R136 to R142). -/

namespace Sys2Proof.Machine

variable {s : State} {t : Word}

/-! ## UNIFORM -/

/-- The division by `CVT64(2^63 - 1)` is exact: it lowers the exponent field (spec R137). -/
theorem uniformOf_eq_uniformBits (free t : Word) : uniformOf free t = uniformBits t := by
  have hpos : 0 < 2 ^ binary64.scale := Nat.two_pow_pos _
  have hdivisor : binary64.units (cvt64 Config.realDivisor).toNat = 2 ^ 63 * 2 ^ binary64.scale := by
    rw [cvt64_realDivisor]
    exact units64_two_pow (j := 63) (by decide)
  have hquotient : divValue (value64 (cvt64 (sel63 t))) (value64 (cvt64 Config.realDivisor)) =
      .finite false (binary64.units (cvt64 (sel63 t)).toNat * 2 ^ binary64.scale)
        (2 ^ binary64.scale * (2 ^ 63 * 2 ^ binary64.scale)) := by
    rw [value64_cvt64 ((sel63_lt t).trans (by decide)), value64_cvt64 (n := Config.realDivisor) (by decide), hdivisor,
      divValue, if_neg (by positivity)]
    rfl
  refine BitVec.eq_of_toNat_eq ?_
  rw [uniformOf, div64, round64_toNat, hquotient, FloatFormat.round_finite_false, ← units_uniformBits]
  refine binary64.roundMagnitude_eq binary64_wellSized (by positivity) ((uniformBits_le_one t).trans_lt (by decide)) ?_
  ring

/-- Settles O41: UNIFORM draws once, and its division is exact. -/
theorem uniformAnswersTheScaledWord : Obligations.UniformAnswersTheScaledWord := by
  intro s hs
  rw [exec_uniform, whenSeeded_of_seeded _ hs, ← uniformOf_eq_uniformBits]
  rfl

/-! ## RANDDOUBLE and RANDFLOAT -/

theorem exec_randdouble_of_passes {bound : F64} (hs : s.seeded = true)
    (h : ¬ ArgumentCheckFails (.randdouble bound)) : exec (.randdouble bound) s = drawOnce (randdoubleData bound) s :=
  exec_of_checked (i := .randdouble bound) rfl (.inr hs) h

theorem exec_randfloat_of_passes {bound : F32} (hs : s.seeded = true)
    (h : ¬ ArgumentCheckFails (.randfloat bound)) : exec (.randfloat bound) s = drawOnce (randfloatData bound) s :=
  exec_of_checked (i := .randfloat bound) rfl (.inr hs) h

/-- Settles O46: the check made is the one spec R166 lists, and a command that passes it draws once and answers. -/
theorem realBoundCheckIsTheIeeeComparison : Obligations.RealBoundCheckIsTheIeeeComparison := by
  intro s hs
  refine ⟨fun bound => ⟨exec_of_argumentCheckFails (i := .randdouble bound) rfl hs, fun h => ?_⟩,
    fun bound => ⟨exec_of_argumentCheckFails (i := .randfloat bound) rfl hs, fun h => ?_⟩⟩
  · exact ⟨_, _, exec_randdouble_of_passes hs h, rfl⟩
  · exact ⟨_, _, exec_randfloat_of_passes hs h, rfl⟩

/-- Settles O44: the data is the rounded product, and only a NaN's depends on which NaN is free. -/
theorem randdoubleAnswersTheRoundedProduct : Obligations.RanddoubleAnswersTheRoundedProduct := by
  intro bound s hs hpasses
  refine ⟨randdoubleData bound s.gen, _, rfl, exec_randdouble_of_passes hs hpasses, fun hnumber free => ?_,
    fun hnan => ?_⟩ <;> rw [randdoubleData, uniformOf_eq_uniformBits, mul64]
  · exact round64_congr hnumber _ _
  · rw [hnan]
    exact value64_round64_nan _

/-- `u` is a number, so narrowing it does not depend on which NaN is free. -/
theorem narrow_uniformBits_congr (free free' : BitVec 32) (t : Word) :
    narrow free (uniformBits t) = narrow free' (uniformBits t) :=
  round32_congr (by rw [value64_uniformBits]; exact nofun) _ _

/-- The 32-bit answer of RANDFLOAT, as a function of the generator state it draws from (spec R140). -/
def randfloatResult (bound : F32) (g : GeneratorState) : F32 :=
  mul32 (Config.freeNan32 g.mt g.idx bound)
    (narrow (Config.freeNan32 g.mt g.idx bound) (uniformBits (extractWord g).1)) bound

theorem randfloatData_eq (bound : F32) (g : GeneratorState) :
    randfloatData bound g = (randfloatResult bound g).setWidth 64 := by
  rw [randfloatData, uniformData, uniformOf_eq_uniformBits]
  rfl

/-- Settles O45: the data is the rounded product with the narrowed `u`, and only a NaN's depends on the free NaN. -/
theorem randfloatNarrowsThenMultiplies : Obligations.RandfloatNarrowsThenMultiplies := by
  intro bound s hs hpasses
  refine ⟨randfloatResult bound s.gen, _, fun free => congrArg (fun u => mulValue (value32 u) (value32 bound))
    (narrow_uniformBits_congr _ free _), ?_, fun hnumber free => round32_congr hnumber _ _, fun hnan => ?_⟩
  · rw [exec_randfloat_of_passes hs hpasses, drawOnce, randfloatData_eq]
    rfl
  · rw [randfloatResult, mul32, hnan]
    exact value32_round32_nan _

/-! ## Narrowing `u` -/

theorem narrow_uniformBits_toNat (free : BitVec 32) (t : Word) : (narrow free (uniformBits t)).toNat =
    binary32.roundMagnitude (binary64.units (uniformBits t).toNat) (2 ^ binary64.scale) := by
  rw [narrow, value64_uniformBits, round32_toNat, FloatFormat.round_finite_false]

theorem narrow_uniformBits_le_one (free : BitVec 32) (t : Word) :
    (narrow free (uniformBits t)).toNat ≤ binary32.oneBits := by
  have hle := binary64.units_le_of_le_oneBits binary64_wellSized (uniformBits_le_one t)
  rw [narrow_uniformBits_toNat]
  refine binary32.roundMagnitude_le binary32_wellSized (Nat.two_pow_pos _) (by decide) ?_
  rw [binary32.units_oneBits binary32_wellSized, Nat.mul_comm]
  exact Nat.mul_le_mul_left _ hle

/-- `NARROW(u)` is 1.0 from `u = 1 - 2^-25` on, the midpoint below 1.0 in binary32 (spec R142). -/
theorem narrow_uniformBits_eq_one (free : BitVec 32) (h : 0x3FEFFFFFF0000000#64 ≤ uniformBits t) :
    narrow free (uniformBits t) = 0x3F800000#32 := by
  refine BitVec.eq_of_toNat_eq (Nat.le_antisymm (narrow_uniformBits_le_one free t) ?_)
  have hplace : binary64.Place 0x3FEFFFFFF0000000 1021 ((4 * 2 ^ 23 - 1) * 2 ^ 28) :=
    ⟨by decide, by decide, .inr (by decide)⟩
  have hlt : (uniformBits t).toNat < binary64.signWeight := (uniformBits_le_one t).trans_lt (by decide)
  have hunits : binary64.units 0x3FEFFFFFF0000000 ≤ _ := binary64.units_le_units (BitVec.le_def.mp h) hlt
  rw [hplace.units (by decide)] at hunits
  have hscale64 : 2 ^ binary64.scale = 2 ^ 53 * 2 ^ 1021 := by
    rw [show binary64.scale = 53 + 1021 by decide, pow_add]
  have hscale32 : 2 ^ binary32.scale = 2 ^ 24 * 2 ^ 125 := by
    rw [show binary32.scale = 24 + 125 by decide, pow_add]
  rw [narrow_uniformBits_toNat]
  refine (binary32.power_le_roundMagnitude_iff binary32_wellSized (Nat.two_pow_pos _) (i := 125) (by decide)).mpr ?_
  rw [hscale64, hscale32]
  generalize (2 : Nat) ^ 1021 = x at *
  generalize (2 : Nat) ^ 125 = y at *
  calc (4 * 2 ^ 23 - 1) * y * (2 ^ 53 * x)
    _ = 2 * ((4 * 2 ^ 23 - 1) * 2 ^ 28 * x * (2 ^ 24 * y)) := by ring
    _ ≤ 2 * (binary64.units (uniformBits t).toNat * (2 ^ 24 * y)) := by gcongr

/-- `NARROW(u)` is 0 only for `u = 0`: every other `u` is at least `2^-63` (spec R142). -/
theorem narrow_uniformBits_eq_zero_iff (free : BitVec 32) (t : Word) :
    narrow free (uniformBits t) = 0#32 ↔ uniformBits t = 0#64 := by
  rw [← BitVec.toNat_inj, narrow_uniformBits_toNat]
  refine ⟨fun h => by_contra fun hne => ?_, fun h => ?_⟩
  · have hone : binary32.units 1 = 1 := by decide
    have hsel : sel63 t ≠ 0 := mt uniformBits_eq_zero_iff_sel63.mpr hne
    have hle := binary64.units_le_units (le_cvt64_of_pos (Nat.pos_of_ne_zero hsel))
      ((cvt64_lt_infinityBits ((sel63_lt t).trans (by decide))).trans binary64.infinityBits_lt_signWeight)
    have hpow : 2 ^ 63 ≤ 2 ^ binary32.scale := Nat.pow_le_pow_right (by decide) (by decide)
    rw [units64_one, ← units_uniformBits] at hle
    have hpos := binary32.le_roundMagnitude (b := 1) binary32_wellSized (Nat.two_pow_pos binary64.scale) (by decide)
      (by rw [hone, Nat.one_mul]; exact hle.trans (Nat.mul_le_mul_left _ hpow))
    rw [h] at hpos
    exact absurd hpos (by decide)
  · rw [h, BitVec.toNat_zero, FloatFormat.units_zero]
    exact binary32.roundMagnitude_eq binary32_wellSized (Nat.two_pow_pos _) (by decide) (by simp)

/-! ## Special operands -/

/-- A product of binary64 patterns whose first factor is at most 1.0 (spec R142). -/
theorem mul64_special {u : F64} (hu : u.toNat ≤ binary64.oneBits) (free : Word) (bound : F64) :
    (bound < 0x7FF0000000000000#64 → mul64 free u bound ≤ bound ∧
      (u = 0x3FF0000000000000#64 → mul64 free u bound = bound)) ∧
    (bound = 0x7FF0000000000000#64 → (u ≠ 0#64 → mul64 free u bound = 0x7FF0000000000000#64) ∧
      (u = 0#64 → value64 (mul64 free u bound) = .nan)) ∧
    (value64 bound = .nan → value64 (mul64 free u bound) = .nan) := by
  simp only [value64, ne_eq, ← BitVec.toNat_inj, BitVec.le_def, BitVec.lt_def, mul64_toNat]
  exact binary64.mul_special binary64_wellSized hu _ _

/-- A product of binary32 patterns whose first factor is at most 1.0 (spec R142). -/
theorem mul32_special {u : F32} (hu : u.toNat ≤ binary32.oneBits) (free : BitVec 32) (bound : F32) :
    (bound < 0x7F800000#32 → mul32 free u bound ≤ bound ∧ (u = 0x3F800000#32 → mul32 free u bound = bound)) ∧
    (bound = 0x7F800000#32 → (u ≠ 0#32 → mul32 free u bound = 0x7F800000#32) ∧
      (u = 0#32 → value32 (mul32 free u bound) = .nan)) ∧
    (value32 bound = .nan → value32 (mul32 free u bound) = .nan) := by
  simp only [value32, ne_eq, ← BitVec.toNat_inj, BitVec.le_def, BitVec.lt_def, mul32_toNat]
  exact binary32.mul_special binary32_wellSized hu _ _

/-- Settles O47: both factors, `u` and `NARROW(u)`, are at most 1.0, and they are 0 together. -/
theorem realProductsStayWithinTheBound : Obligations.RealProductsStayWithinTheBound := by
  refine ⟨fun free t bound => ?_, fun free t bound => ?_⟩
  · obtain ⟨hfinite, hspecial⟩ := mul64_special (uniformBits_le_one t) free bound
    exact ⟨fun _ => hfinite, hspecial⟩
  · obtain ⟨hfinite, hinf, hnan⟩ := mul32_special (narrow_uniformBits_le_one free t) free bound
    have hzero := narrow_uniformBits_eq_zero_iff free t
    rw [Ne, hzero] at hinf
    exact ⟨fun _ => hfinite, hinf, narrow_uniformBits_eq_one free, hzero, hnan⟩

end Sys2Proof.Machine
end

section
/-! The reading commands: what they answer on a seeded engine, and that `MT` and `IDX` stay as SEED left them under all
actions that draw nothing, so that GETSEED answers the seed (spec R94, R155 to R158). -/

namespace Sys2Proof.Machine

variable {i : Instr} {s : State} {w : CommandWord} {a : HostAction} {seed : Word}

theorem exec_getseed_of_seeded (hs : s.seeded = true) :
    exec .getseed s = .next { s with responses := s.responses ++ [⟨.ok, readWord s.gen.mt 0⟩] } :=
  whenSeeded_of_seeded _ hs

theorem exec_rdcur_of_seeded (hs : s.seeded = true) :
    exec .rdcur s = .next { s with responses := s.responses ++ [⟨.ok, packCursor s.gen.idx⟩] } :=
  whenSeeded_of_seeded _ hs

theorem exec_rdword_of_seeded {index : BitVec 9} (hs : s.seeded = true) (hindex : index.toNat < Config.N) :
    exec (.rdword index) s = .next { s with responses := s.responses ++ [⟨.ok, readWord s.gen.mt index.toNat⟩] } :=
  (if_pos hindex).trans (whenSeeded_of_seeded _ hs)

/-- An index out of range is illegal before `SEEDED` is looked at (spec R66 case 3, R158). -/
theorem exec_rdword_of_ge {index : BitVec 9} (hindex : Config.N ≤ index.toNat) (s : State) :
    exec (.rdword index) s = .next { s with responses := s.responses ++ [⟨.illegalCommand, 0#64⟩] } :=
  if_neg (Nat.not_lt.mpr hindex)

/-- The cursor is packed without loss (spec R157). -/
theorem packCursor_toNat (idx : Cursor) : (packCursor idx).toNat = idx.toNat :=
  BitVec.toNat_setWidth_of_le (by decide)

/-- Settles O29: behind the gate each reading command ends at once, and RDWORD's index is checked before the gate. -/
theorem readingCommandsAnswerAndWriteNothing : Obligations.ReadingCommandsAnswerAndWriteNothing := by
  intro s
  refine ⟨fun hs => ⟨exec_getseed_of_seeded hs, ?_, fun index hindex => ?_⟩, fun index hindex => ?_⟩
  · exact ⟨packCursor s.gen.idx, packCursor_toNat _, exec_rdcur_of_seeded hs⟩
  · exact exec_rdword_of_seeded hs (Nat.lt_succ_of_le hindex)
  · exact exec_rdword_of_ge hindex s

/-! ## Actions without a draw -/

/-- On a seeded engine a command that draws nothing adds a response and does nothing else (spec R156, R166). -/
theorem exec_of_drawsNothing (hwf : i.WellFormed) (hs : s.seeded = true) (h : CommandDrawsNothing i) :
    ∃ r, exec i s = .next { s with responses := s.responses ++ [r] } := by
  by_cases hfails : ArgumentCheckFails i
  · exact ⟨_, exec_of_argumentCheckFails hwf hs hfails⟩
  · rw [exec_of_checked hwf (.inr hs) hfails]
    cases i with
    | getseed | rdcur | rdword => exact ⟨_, rfl⟩
    | seed | extract | randint | randrange | uniform | randfloat | randdouble =>
      exact absurd h (by simp [CommandDrawsNothing, Instr.mnemonic, hfails])

theorem runCommand_of_drawsNothing (hs : s.seeded = true) (h : (HostAction.command w).DrawsNothing) :
    ∃ r, runCommand w s = .next { s with responses := s.responses ++ [r] } := by
  cases hdecode : decode w with
  | error e => exact ⟨_, runCommand_of_error hdecode s⟩
  | ok i =>
    rw [runCommand_of_ok hdecode]
    exact exec_of_drawsNothing (decode_eq_ok_iff.mp hdecode).1 hs (h i hdecode)

/-- A host action that draws nothing leaves all of a seeded idle engine but its responses. -/
theorem act_of_drawsNothing (hphase : s.phase = .idle) (hs : s.seeded = true) (ha : a.DrawsNothing) :
    ∃ responses, act a s = .next { s with responses := responses } := by
  cases a with
  | wait => exact ⟨s.responses, goOn_of_not_drawing (by simp [hphase])⟩
  | command w =>
    obtain ⟨r, hr⟩ := runCommand_of_drawsNothing hs ha
    exact ⟨_, (offerCommand_of_idle w hphase).trans hr⟩
  | releaseReset => exact ⟨s.responses, act_releaseReset (by simp [hphase])⟩
  | commandCutByReset | assertReset => exact ha.elim

/-- A run of host actions that draw nothing leaves all of a seeded idle engine but the two ports. -/
theorem stepsTo_of_drawsNothing {actions rest : List HostAction} (hphase : s.phase = .idle) (hs : s.seeded = true)
    (hactions : ∀ a ∈ actions, a.DrawsNothing) (hhost : s.host = actions ++ rest) :
    ∃ responses, s.StepsTo actions.length { s with host := rest, responses := responses } := by
  induction actions generalizing s with
  | nil => exact ⟨s.responses, by rw [← hhost.trans (List.nil_append rest)]; rfl⟩
  | cons a actions ih =>
    obtain ⟨ha, hactions⟩ := List.forall_mem_cons.mp hactions
    obtain ⟨responses, hact⟩ := act_of_drawsNothing (s := s.takeAction) hphase hs ha
    obtain ⟨responses', hsteps⟩ := ih (s := { s.takeAction with responses := responses }) hphase hs hactions
      (congrArg List.tail hhost)
    exact ⟨responses', _, by rw [step_eq_act, nextAction_of_cons hhost, hact], hsteps⟩

/-! ## What GETSEED answers along the stream of a seed -/

/-- After `k + 1` extractions from a seed the array is batch `k / 312 + 1` (spec R106). -/
theorem afterExtractions_succ_initializeFrom_mt (seed : Word) (k : Nat) :
    (afterExtractions (k + 1) (initializeFrom seed)).mt = batchArray seed (k / 312 + 1) := by
  rw [afterExtractions_succ', extractWord_eq_refill, refill_afterExtractions]

/-- The first twist puts `MT[156] ^ G(seed, MT[1])` in the seed's place (spec R94). -/
theorem readWord_batchArray_one_zero (seed : Word) : readWord (batchArray seed 1) 0 =
    readWord (seedArray seed) 156 ^^^ twistMix seed (readWord (seedArray seed) 1) :=
  (twistEqualsItsTwoArrayForm (seedArray seed)).1 0 (by decide)

/-- SEED, whatever draws nothing, and GETSEED: the engine is then as SEED left it, and answers the seed (spec R156). -/
theorem getseed_after_drawsNothing {actions rest : List HostAction} (hphase : s.phase = .idle)
    (hactions : ∀ a ∈ actions, a.DrawsNothing)
    (hhost : s.host = .command (encode (.seed seed)) :: (actions ++ .command (encode .getseed) :: rest)) :
    ∃ t, s.StepsTo (actions.length + 1) t ∧ t.seeded = true ∧ t.gen = initializeFrom seed ∧
      step t = .next { t with host := rest, responses := t.responses ++ [⟨.ok, seed⟩] } := by
  have hseed := stepRunsTheDecodedCommand s _ _ _ hphase hhost (decodeOfEncodeIsTheCommand (.seed seed) rfl)
  rw [exec_seed] at hseed
  obtain ⟨responses, hsteps⟩ := stepsTo_of_drawsNothing (s := { s with
    seeded := true
    gen := initializeFrom seed
    host := actions ++ .command (encode .getseed) :: rest
    responses := s.responses ++ [⟨.ok, 0#64⟩] }) hphase rfl hactions rfl
  refine ⟨_, ⟨_, hseed, hsteps⟩, rfl, rfl, ?_⟩
  exact stepRunsTheDecodedCommand _ _ rest .getseed hphase rfl (decodeOfEncodeIsTheCommand .getseed rfl)

/-- Settles O30: GETSEED reads `MT[0]`, which is the seed until a draw twists the array, and then word 0 of a batch. -/
theorem getseedReturnsTheSeedUntilTheFirstDraw : Obligations.GetseedReturnsTheSeedUntilTheFirstDraw := by
  intro seed s
  refine ⟨⟨_, _, exec_seed seed s, exec_getseed_of_seeded rfl, List.append_assoc _ _ _⟩,
    ⟨_, _, _, (extractWord (initializeFrom seed)).1, exec_seed seed s, exec_extract_of_seeded rfl,
      exec_getseed_of_seeded rfl, ?_⟩,
    fun _ _ => getseed_after_drawsNothing, fun k hk hs hgen => ?_⟩
  · have hmt : (extractWord (initializeFrom seed)).2.mt = batchArray seed 1 :=
      afterExtractions_succ_initializeFrom_mt seed 0
    rw [hmt, readWord_batchArray_one_zero, List.append_assoc, List.append_assoc]
    rfl
  · obtain ⟨j, rfl⟩ := Nat.exists_eq_add_of_le' hk
    rw [exec_getseed_of_seeded hs, hgen, afterExtractions_succ_initializeFrom_mt]
    rfl

end Sys2Proof.Machine
end

section
/-! Errors: what raises one, and that its response is the only trace it leaves (spec R165 to R170). -/

namespace Sys2Proof.Machine

variable {i : Instr} {s t : State} {w : CommandWord} {r : Response}

/-- A word that matches rows only as an RDWORD of index 312 or more spells no command (spec R63, R66). -/
theorem exists_decode_error (h : ∀ row ∈ opcodeMap, row.Matches w →
    row.mnemonic = .rdword ∧ 312 ≤ (argIndex (argField w)).toNat) : ∃ e, decode w = .error e := by
  cases hdecode : decode w with
  | error e => exact ⟨e, rfl⟩
  | ok i =>
    obtain ⟨row, hrow, hmatch, hlegal⟩ := (decodingFollowsTheOpcodeMap.1 w).mp ⟨i, hdecode⟩
    obtain ⟨hrdword, hindex⟩ := h row hrow hmatch
    have hle := hlegal hrdword
    omega

/-- Settles O11: such a word does not decode, and the port raises IllegalCommand before it looks at `SEEDED`. -/
theorem illegalWordAnswersIllegalCommand : Obligations.IllegalWordAnswersIllegalCommand := by
  intro s w rest hphase hhost hrows
  obtain ⟨e, he⟩ := exists_decode_error hrows
  rw [step_of_idle_of_command hphase hhost, runCommand_of_error he]
  rfl

/-- A command either raises an error, on the state as it found it, or passes all checks (spec R67). -/
theorem exec_raises_or_answersOkOrDraws (hwf : i.WellFormed) (hphase : s.phase = .idle) :
    (∃ e, exec i s = raise e s) ∨ AnswersOkOrDraws i s (exec i s) := by
  by_cases hgate : i.mnemonic = .seed ∨ s.seeded = true
  · by_cases hcheck : ArgumentCheckFails i
    · have hs : s.seeded = true := hgate.resolve_left fun hi => by
        obtain ⟨seed, rfl⟩ := eq_seed_of_mnemonic hi
        exact hcheck
      exact .inl ⟨_, exec_of_argumentCheckFails hwf hs hcheck⟩
    · rw [exec_of_checked hwf hgate hcheck]
      exact .inr (execChecked_answersOkOrDraws i hphase)
  · obtain ⟨hi, hs⟩ := not_or.mp hgate
    exact .inl ⟨_, exec_of_unseeded_of_wellFormed hwf hi (eq_false_of_ne_true hs)⟩

/-- The response added on the way past all checks is OK. -/
theorem AnswersOkOrDraws.status_eq_ok (h : AnswersOkOrDraws i s (.next t)) (hr : t.responses = s.responses ++ [r]) :
    r.status = .ok := by
  obtain ⟨u, hu, hcases⟩ := h
  cases hu
  rcases hcases with ⟨-, d, hd⟩ | ⟨-, -, hnone⟩
  · rw [append_one_inj (hr.symm.trans hd)]
  · exact absurd (hnone.symm.trans hr) (by simp)

/-- Raising an error adds its response, with data 0, and nothing else (spec R170). -/
theorem raise_leaves_no_trace {e : EngineError} (h : raise e s = .next t) (hr : t.responses = s.responses ++ [r]) :
    r.data = 0#64 ∧ t = { s with responses := s.responses ++ [r] } := by
  cases h
  obtain rfl := append_one_inj hr
  exact ⟨rfl, rfl⟩

/-- Settles O14: a response that is not OK comes from `raise`, at the port or in the command. -/
theorem errorResponseLeavesNoTrace : Obligations.ErrorResponseLeavesNoTrace := by
  intro s t w rest r hphase hhost hstep hr hstatus
  rw [step_of_idle_of_command hphase hhost] at hstep
  cases hdecode : decode w with
  | error e =>
    rw [runCommand_of_error hdecode] at hstep
    exact raise_leaves_no_trace hstep hr
  | ok i =>
    rw [runCommand_of_ok hdecode] at hstep
    have hwf : i.WellFormed := (decode_eq_ok_iff.mp hdecode).1
    rcases exec_raises_or_answersOkOrDraws (s := { s with host := rest }) hwf hphase with ⟨e, he⟩ | hok
    · exact raise_leaves_no_trace (he.symm.trans hstep) hr
    · rw [hstep] at hok
      exact absurd (hok.status_eq_ok hr) hstatus

/-- Settles O50: the gate for unseeded engines stands before all else a well-formed command other than SEED does. -/
theorem unseededEngineAnswersUnseeded : Obligations.UnseededEngineAnswersUnseeded :=
  fun _ _ hwf hi hs => exec_of_unseeded_of_wellFormed hwf hi hs

end Sys2Proof.Machine
end

section
/-! Reset and the hang: what a step does while reset is asserted or released, and why an engine in a loop that never
accepts stays in it until reset (spec R190, R191, R197). -/

namespace Sys2Proof.Machine

variable {s : State} {a : HostAction} {job : BoundedJob} {b : Nat} {g : GeneratorState} {rest : List HostAction}

/-! ## Reset -/

/-- A step that takes a release of reset leaves what the release leaves (spec R190). -/
theorem step_eq_leaveReset (hhost : s.host = .releaseReset :: rest) : step s = .next s.takeAction.leaveReset := by
  rw [step_eq_act, nextAction_of_cons hhost]
  rfl

/-- Settles O15: the first step enters reset from any phase, and the second then leaves it. -/
theorem resetLeavesTheEngineUnseededAndIdle : Obligations.ResetLeavesTheEngineUnseededAndIdle := by
  intro s rest hhost
  have hassert : step s = .next s.takeAction.enterReset := step_of_resetIsAsserted ⟨_, .inl hhost⟩
  have hnext : s.takeAction.enterReset.host = .releaseReset :: rest := congrArg List.tail hhost
  have hrelease := step_eq_leaveReset hnext
  exact ⟨_, _, hassert, rfl, rfl, rfl, hrelease, leaveReset_phase_of_inReset _ rfl, leaveReset_seeded _,
    leaveReset_responses _, (leaveReset_host _).trans (congrArg List.tail hnext)⟩

/-- Settles O16: an engine in reset is not ready, and nothing goes on in it. -/
theorem noCommandIsAcceptedInReset : Obligations.NoCommandIsAcceptedInReset := by
  intro s w rest hphase hhost
  rw [step_eq_act, nextAction_of_cons hhost, takeAction_of_cons hhost, act,
    offerCommand_of_not_idle w (by simp [hphase]), goOn_of_not_drawing (by simp [hphase])]

/-- Settles O17: the step in which reset cuts a command is one in which reset is asserted. -/
theorem commandCutByResetGivesNoResponse : Obligations.CommandCutByResetGivesNoResponse := by
  intro s w rest hhost
  exact ⟨_, step_of_resetIsAsserted ⟨rest, .inr ⟨w, hhost⟩⟩, rfl, rfl, rfl, congrArg List.tail hhost⟩

/-! ## The hang -/

/-- A stream that is never accepted is never accepted from any later point on. -/
theorem NeverAccepts.afterExtractions (h : NeverAccepts b g) (j : Nat) : NeverAccepts b (afterExtractions j g) :=
  fun k => drawBits_add g j k ▸ h (j + k)

/-- One more pass of a loop that never accepts consumes a word and stays in the loop (spec R120). -/
theorem continueJob_of_neverAccepts (hb : 0 < job.bound.toInt) (h : NeverAccepts job.bound.toNat s.gen) :
    continueJob job s = .next { s with gen := afterExtractions 1 s.gen, phase := .drawing job } := by
  have hpass : boundedPass job.bound s.gen = (none, afterExtractions 1 s.gen) :=
    Prod.ext ((boundedPass_rejects job.bound s.gen hb 0).mpr (h 0)) (boundedPass_gen job.bound s.gen)
  rw [continueJob, hpass]
  rfl

theorem goOn_of_neverAccepts (hphase : s.phase = .drawing job) (hb : 0 < job.bound.toInt)
    (h : NeverAccepts job.bound.toNat s.gen) : goOn s = .next { s with gen := afterExtractions 1 s.gen } := by
  have hgoOn : goOn s = continueJob job s := by simp [goOn, hphase]
  rw [hgoOn, continueJob_of_neverAccepts hb h, ← hphase]

/-- A host action other than reset makes an engine in a loop that never accepts draw some words and nothing else. -/
theorem act_of_neverAccepts (hphase : s.phase = .drawing job) (hb : 0 < job.bound.toInt)
    (h : NeverAccepts job.bound.toNat s.gen) (ha : ¬ (a = .assertReset ∨ ∃ w, a = .commandCutByReset w)) :
    ∃ n, act a s = .next { s with gen := afterExtractions n s.gen } := by
  cases a with
  | wait => exact ⟨1, goOn_of_neverAccepts hphase hb h⟩
  | command w =>
    exact ⟨1, (offerCommand_of_not_idle w (by simp [hphase])).trans (goOn_of_neverAccepts hphase hb h)⟩
  | releaseReset => exact ⟨0, act_releaseReset (by simp [hphase])⟩
  | assertReset => exact absurd (.inl rfl) ha
  | commandCutByReset w => exact absurd (.inr ⟨w, rfl⟩) ha

/-- Settles O40: the step is a host action other than reset, which at most draws words none of which is accepted. -/
theorem hungEngineAnswersNothingUntilReset : Obligations.HungEngineAnswersNothingUntilReset := by
  intro s job hphase hb hnever hassert hcut
  have hreset : ¬ s.ResetIsAsserted := by
    rintro ⟨rest, hhost | ⟨w, hhost⟩⟩
    · exact hassert rest hhost
    · exact hcut w rest hhost
  obtain ⟨n, hact⟩ := act_of_neverAccepts (s := s.takeAction) hphase hb hnever
    (mt resetIsAsserted_of_nextAction hreset)
  exact ⟨_, (step_eq_act s).trans hact, hphase, rfl, rfl, rfl, hnever.afterExtractions n⟩

end Sys2Proof.Machine
end
